-- ==== Sys2Proof/Word.lean ====
section
/-! DEFINITION. The word types of the alfalfa prediction core (spec 00_scope.md R7, R8): a sample, a command word, a
status register and a frame-buffer slot number. Arithmetic is done on mathematical integers (R9), in Machine/Ops.lean. -/

namespace Sys2Proof

/-- An 8-bit unsigned sample, 0..255 (R7, R12). -/
abbrev Sample := BitVec 8

/-- A 64-bit command word, bit 0 the least significant (R8, R80). -/
abbrev CommandWord := BitVec 64

/-- A 32-bit status register (R30). -/
abbrev StatusWord := BitVec 32

/-- The number of a frame-buffer slot, 0..3 (R7, R23). -/
abbrev Slot := BitVec 2

end Sys2Proof
end

