-- ==== Sys2Proof/Syntax.lean ====
section
/-! DEFINITION. The commands of the core, one constructor for each row of spec/opcode_table.json (30_encoding.md R96),
with their operand fields (R85 to R89), and the names of the LogicFaults (60_exceptions.md R232), which the decoder
already raises. -/

namespace Sys2Proof

/-- A plane of a raster: PLANE = 0, 1, 2 (R90). PLANE = 3 is reserved and stands for no plane. -/
inductive Plane where
  | y
  | u
  | v
  deriving DecidableEq, Repr

/-- The nine LogicFaults (R232), in the order of their codes 1 to 9. -/
inductive LogicFault where
  /-- code 1, at decode: OP is 0x0 or 0x6..0xF (R82) -/
  | illegalOpcode
  /-- code 2, at decode: a reserved bit of the format is 1 (R84) -/
  | reservedBits
  /-- code 3, at decode of formats I and P: PLANE is 3 (R90) -/
  | badPlane
  /-- code 4, at decode of format B: BMODE is 10..15 (R92) -/
  | badMode
  /-- code 5, at decode of format P: BLK is out of range for SUB and PLANE (R93) -/
  | badBlock
  /-- code 6, by INTRA_MB, INTRA_B and INTER: MB_VALID is 0 -/
  | noMbContext
  /-- code 7, by BEGIN_MB and INTER: the named slot has FB_VALID = 0 -/
  | fbNotConfigured
  /-- code 8, by INTER: REF is MB_FB (R202) -/
  | refIsCurrent
  /-- code 9, by BEGIN_MB: MBX or MBY lies outside the macroblock grid -/
  | mbOutOfRange
  deriving DecidableEq, Repr

/-- The two reasons of the non-fatal UnsupportedInput of CFG_RASTER (R231). -/
inductive UnsupportedInput where
  /-- CFG_ERR = 1: DW or DH is odd -/
  | oddDimension
  /-- CFG_ERR = 2: DW or DH is 0, and both are even -/
  | zeroDimension
  deriving DecidableEq, Repr

/-- The 17 commands (R96). Motion-vector components are the raw 16-bit fields; `sext_16` reads them (R94). -/
inductive Instr where
  | cfgRaster (fb : Slot) (dw dh : BitVec 14)
  | beginMb (fb : Slot) (mbx mby : BitVec 10)
  | intraMbDc (plane : Plane)
  | intraMbV (plane : Plane)
  | intraMbH (plane : Plane)
  | intraMbTm (plane : Plane)
  | intraBDc (blk : BitVec 4)
  | intraBTm (blk : BitVec 4)
  | intraBVe (blk : BitVec 4)
  | intraBHe (blk : BitVec 4)
  | intraBLd (blk : BitVec 4)
  | intraBRd (blk : BitVec 4)
  | intraBVr (blk : BitVec 4)
  | intraBVl (blk : BitVec 4)
  | intraBHd (blk : BitVec 4)
  | intraBHu (blk : BitVec 4)
  | inter (ref : Slot) (plane : Plane) (sub : Bool) (blk : BitVec 4) (mvx mvy : BitVec 16)
  deriving DecidableEq, Repr

end Sys2Proof
end

