-- ==== Sys2Proof/WellFormed.lean ====
section
/-! DEFINITION. Which terms of `Instr` are commands of the hardware. The types of the operand fields carry every
constraint of 30_encoding.md but that of BLK in format P (R93). -/

namespace Sys2Proof

/-- BLK of a format P command (R93): 0 for the macroblock-level block; 0..15 for a luma sub-block; 0..3 for a chroma
sub-block. -/
def interBlkOk (plane : Plane) (sub : Bool) (blk : BitVec 4) : Bool :=
  match sub, plane with
  | false, _ => blk == 0
  | true, .y => true
  | true, .u => blk.toNat ≤ 3
  | true, .v => blk.toNat ≤ 3

/-- A command that some 64-bit word encodes (R93, R95). -/
def Instr.wellFormed : Instr → Bool
  | .cfgRaster _ _ _ => true
  | .beginMb _ _ _ => true
  | .intraMbDc _ => true
  | .intraMbV _ => true
  | .intraMbH _ => true
  | .intraMbTm _ => true
  | .intraBDc _ => true
  | .intraBTm _ => true
  | .intraBVe _ => true
  | .intraBHe _ => true
  | .intraBLd _ => true
  | .intraBRd _ => true
  | .intraBVr _ => true
  | .intraBVl _ => true
  | .intraBHd _ => true
  | .intraBHu _ => true
  | .inter _ plane sub blk _ _ => interBlkOk plane sub blk

end Sys2Proof
end

