-- ==== Sys2Proof/Decode.lean ====
section
/-! DEFINITION. The command decoder (30_encoding.md R80 to R96) and, after it, the encoder. The decoder is total: a
64-bit word gives one command or one LogicFault. No command has a don't-care bit, so each command has one word. -/

namespace Sys2Proof

/-- `w[lo + len − 1 : lo]` (R8). -/
def bits (w : CommandWord) (lo len : Nat) : BitVec len := w.extractLsb' lo len

/-- The five command formats (R81). -/
inductive Format where
  | c
  | m
  | i
  | b
  | p
  deriving DecidableEq, Repr

/-- The format an opcode selects; 0x0 and 0x6..0xF select none (R81, R82). -/
def formatOf (op : BitVec 4) : Option Format :=
  match op.toNat with
  | 1 => some .c
  | 2 => some .m
  | 3 => some .i
  | 4 => some .b
  | 5 => some .p
  | _ => none

/-- The reserved bits of a format, OP excluded (R84). -/
def reservedMask : Format → CommandWord
  | .c => 0x0CFFFFFFF0000000
  | .m => 0x0CFFFFFFFC00FC00
  | .i => 0x0F3FFFFFFFFFFFFC
  | .b => 0x0FF0FFFFFFFFFFF0
  | .p => 0x0C20FFFF00000000

/-- PLANE (R90). -/
def planeOf (field : BitVec 2) : Option Plane :=
  match field.toNat with
  | 0 => some .y
  | 1 => some .u
  | 2 => some .v
  | _ => none

/-- MODE of format I (R91): all four values are legal. -/
def intraMbOf (mode : BitVec 2) (plane : Plane) : Instr :=
  match mode.toNat with
  | 0 => .intraMbDc plane
  | 1 => .intraMbV plane
  | 2 => .intraMbH plane
  | _ => .intraMbTm plane

/-- BMODE of format B (R92): 10 to 15 name no mode. -/
def intraBOf (bmode : BitVec 4) (blk : BitVec 4) : Option Instr :=
  match bmode.toNat with
  | 0 => some (.intraBDc blk)
  | 1 => some (.intraBTm blk)
  | 2 => some (.intraBVe blk)
  | 3 => some (.intraBHe blk)
  | 4 => some (.intraBLd blk)
  | 5 => some (.intraBRd blk)
  | 6 => some (.intraBVr blk)
  | 7 => some (.intraBVl blk)
  | 8 => some (.intraBHd blk)
  | 9 => some (.intraBHu blk)
  | _ => none

/-- Format C, CFG_RASTER (R85). -/
def decodeC (w : CommandWord) : Except LogicFault Instr :=
  .ok (.cfgRaster (bits w 56 2) (bits w 14 14) (bits w 0 14))

/-- Format M, BEGIN_MB (R86). -/
def decodeM (w : CommandWord) : Except LogicFault Instr :=
  .ok (.beginMb (bits w 56 2) (bits w 16 10) (bits w 0 10))

/-- Format I, INTRA_MB (R87, R90). -/
def decodeI (w : CommandWord) : Except LogicFault Instr :=
  match planeOf (bits w 54 2) with
  | none => .error .badPlane
  | some plane => .ok (intraMbOf (bits w 0 2) plane)

/-- Format B, INTRA_B (R88, R92). -/
def decodeB (w : CommandWord) : Except LogicFault Instr :=
  match intraBOf (bits w 0 4) (bits w 48 4) with
  | none => .error .badMode
  | some i => .ok i

/-- Format P, INTER (R89, R90, R93): BAD_PLANE is checked before BAD_BLOCK. -/
def decodeP (w : CommandWord) : Except LogicFault Instr :=
  match planeOf (bits w 54 2) with
  | none => .error .badPlane
  | some plane =>
    if interBlkOk plane (bits w 52 1 == 1) (bits w 48 4) then
      .ok (.inter (bits w 56 2) plane (bits w 52 1 == 1) (bits w 48 4) (bits w 16 16) (bits w 0 16))
    else .error .badBlock

/-- The fields of a word whose format is known and whose reserved bits are 0. -/
def decodeFields : Format → CommandWord → Except LogicFault Instr
  | .c, w => decodeC w
  | .m, w => decodeM w
  | .i, w => decodeI w
  | .b, w => decodeB w
  | .p, w => decodeP w

/-- The decoder, its checks in the order of R95. -/
def decode (w : CommandWord) : Except LogicFault Instr :=
  match formatOf (bits w 60 4) with
  | none => .error .illegalOpcode
  | some fmt =>
    if w &&& reservedMask fmt = 0 then decodeFields fmt w else .error .reservedBits

/-- The decoder on a row of spec/opcode_table.json: bit 0 of `w` is bit 0 of the command word, and bits from `nbits`
up are 0. Every row has 64 bits (R80). -/
def decodeTableWord (nbits w : Nat) : Option Instr :=
  match decode (BitVec.ofNat 64 (w % 2 ^ nbits)) with
  | .ok i => some i
  | .error _ => none

/-- PLANE of a plane (R90). -/
def planeField : Plane → BitVec 2
  | .y => 0
  | .u => 1
  | .v => 2

/-- Format C (R85): OP, 2 reserved, FB, 28 reserved, DW, DH. -/
def encodeC (fb : Slot) (dw dh : BitVec 14) : CommandWord :=
  1#4 ++ 0#2 ++ fb ++ 0#28 ++ dw ++ dh

/-- Format M (R86): OP, 2 reserved, FB, 30 reserved, MBX, 6 reserved, MBY. -/
def encodeM (fb : Slot) (mbx mby : BitVec 10) : CommandWord :=
  2#4 ++ 0#2 ++ fb ++ 0#30 ++ mbx ++ 0#6 ++ mby

/-- Format I (R87): OP, 4 reserved, PLANE, 52 reserved, MODE. -/
def encodeI (plane : Plane) (mode : BitVec 2) : CommandWord :=
  3#4 ++ 0#4 ++ planeField plane ++ 0#52 ++ mode

/-- Format B (R88): OP, 8 reserved, BLK, 44 reserved, BMODE. -/
def encodeB (blk bmode : BitVec 4) : CommandWord :=
  4#4 ++ 0#8 ++ blk ++ 0#44 ++ bmode

/-- Format P (R89): OP, 2 reserved, REF, PLANE, 1 reserved, SUB, BLK, 16 reserved, MVX, MVY. -/
def encodeP (ref : Slot) (plane : Plane) (sub : Bool) (blk : BitVec 4) (mvx mvy : BitVec 16) : CommandWord :=
  5#4 ++ 0#2 ++ ref ++ planeField plane ++ 0#1 ++ BitVec.ofBool sub ++ blk ++ 0#16 ++ mvx ++ mvy

/-- The word of a command (R85 to R92). -/
def encode : Instr → CommandWord
  | .cfgRaster fb dw dh => encodeC fb dw dh
  | .beginMb fb mbx mby => encodeM fb mbx mby
  | .intraMbDc plane => encodeI plane 0
  | .intraMbV plane => encodeI plane 1
  | .intraMbH plane => encodeI plane 2
  | .intraMbTm plane => encodeI plane 3
  | .intraBDc blk => encodeB blk 0
  | .intraBTm blk => encodeB blk 1
  | .intraBVe blk => encodeB blk 2
  | .intraBHe blk => encodeB blk 3
  | .intraBLd blk => encodeB blk 4
  | .intraBRd blk => encodeB blk 5
  | .intraBVr blk => encodeB blk 6
  | .intraBVl blk => encodeB blk 7
  | .intraBHd blk => encodeB blk 8
  | .intraBHu blk => encodeB blk 9
  | .inter ref plane sub blk mvx mvy => encodeP ref plane sub blk mvx mvy

end Sys2Proof
end

