-- ==== Sys2Proof/Config.lean ====
section
/-! DEFINITION. What the spec fixes once for every core (00_scope.md R7, 10_state.md R37) and the one value it leaves
open that a command can read: the draw of an unwritten sample (10_state.md R39, decision D7). The other OPEN parameter
of R7, CMD_LATENCY, enters no rule (70_reset_and_hazards.md R272) and is not modelled (log entry 14). -/

namespace Sys2Proof.Config

/-- FREE VALUE (R39, D7; log entry 4): the `n`-th draw. It has no body, so nothing constrains it; `State.draws` says
which draws have been used, so that every read of an unwritten cell takes one that no earlier read took. -/
opaque freeSample : Nat → BitVec 8

/-- The synthetic above row of a block at the top edge of the frame (R37, R132). -/
def syntheticAbove : Sample := 127

/-- The synthetic left column of a block at the left edge of the frame (R37, R132). -/
def syntheticLeft : Sample := 129

/-- The value of INTRA_MB.DC with no neighbour present (R37, R151). -/
def dcDefault : Sample := 128

end Sys2Proof.Config
end

