-- ==== Sys2Proof/Machine/State.lean ====
section
/-! DEFINITION. The state of the core as plain data (10_state.md), the host and reset events that reach it
(20_memory.md R60, 70_reset_and_hazards.md R274), the reasons a step can stop, and the state after reset (R42). -/

namespace Sys2Proof.Machine

/-- The registers of one frame-buffer slot (R23). Reset: all 0. -/
structure FbSlot where
  /-- FB_VALID, 1 bit -/
  valid : Bool
  /-- FB_DW, 14 bits -/
  dw : BitVec 14
  /-- FB_DH, 14 bits -/
  dh : BitVec 14
  deriving DecidableEq, Repr

/-- The four slots (R7: NUM_FB = 4). -/
structure FbFile where
  fb0 : FbSlot
  fb1 : FbSlot
  fb2 : FbSlot
  fb3 : FbSlot
  deriving DecidableEq, Repr

/-- The address of a sample (R12): slot, plane, column and row. -/
structure SampleAddr where
  fb : Slot
  plane : Plane
  x : Nat
  y : Nat
  deriving DecidableEq, Repr

/-- The sample store (R38): the written cells as (key, sample) pairs, keys strictly rising. A cell that is not listed
is `unwritten`. The key of a cell is `cellKey` of Machine/Ops.lean (log entry 5). -/
abbrev Memory := List Host.Cell

/-- The canonical form of the sample store: keys strictly rising. An unlisted cell has no value, so no entry can equal
what an unlisted cell reads as. -/
abbrev Memory.wf (m : Memory) : Prop := m.Pairwise (fun a b => a.1 < b.1)

/-- What the outside world does, and the turns of the core among it (R59: one total order of steps; R274; log entry
1). -/
inductive Event where
  /-- the core's turn: it performs the front command of the port, if it has an enabled command step -/
  | core
  /-- the host writes a command word to the command port (R267) -/
  | issue (w : CommandWord)
  /-- HostRead (R60) -/
  | hostRead (a : SampleAddr)
  /-- HostWrite (R60) -/
  | hostWrite (a : SampleAddr) (v : Sample)
  /-- a read of the status block at a byte offset (R30) -/
  | statusRead (offset : Nat)
  /-- a write to the status block, which is ignored (R30) -/
  | statusWrite (offset : Nat) (v : StatusWord)
  /-- the reset input (R260, R261) -/
  | resetInput
  deriving DecidableEq, Repr

/-- What a host read returned (R30, R60; log entry 8). -/
inductive HostReply where
  | sample (v : Sample)
  | status (v : StatusWord)
  deriving DecidableEq, Repr

/-- The state of the machine. The fields from `fb` to `store` are the spec's (R42); `port` is the stream of commands
that have arrived and are not yet performed (R50, R267); `schedule`, `reply` and `draws` are the model's own. -/
structure State where
  /-- FB_VALID, FB_DW, FB_DH of the four slots (R23) -/
  fb : FbFile
  /-- MB_VALID (R25) -/
  mbValid : Bool
  /-- MB_FB (R25) -/
  mbFb : BitVec 2
  /-- MB_X (R25) -/
  mbX : BitVec 10
  /-- MB_Y (R25) -/
  mbY : BitVec 10
  /-- FAULTED (R27) -/
  faulted : Bool
  /-- FAULT_CODE (R27) -/
  faultCode : BitVec 4
  /-- FAULT_CMD (R27) -/
  faultCmd : BitVec 64
  /-- CFG_ERR (R28) -/
  cfgErr : BitVec 2
  /-- BUSY (R29) -/
  busy : Bool
  /-- the sample store (R38) -/
  store : Memory
  /-- the command port: words arrived and not yet performed, oldest first (R50, R267) -/
  port : List CommandWord
  /-- MODEL'S OWN (DESIGN CHOICE): the turns still to come, in the total order of R59 (log entry 1) -/
  schedule : List Event
  /-- MODEL'S OWN (DESIGN CHOICE): what the last host read returned (log entry 8) -/
  reply : Option HostReply
  /-- MODEL'S OWN (DESIGN CHOICE): how many draws have been used (R39; log entries 4, 20) -/
  draws : Nat
  deriving DecidableEq, Repr

/-- The reasons the machine stops with a fault. A LogicFault is none of them: its entry is a next state (R236). -/
inductive Fault where
  /-- Raised by `step` when FAULTED = 1 and no event is scheduled: the core has no enabled command step until reset
  (R237), and nothing else is to happen. Safe: the hardware does nothing either. -/
  | coreStuck
  deriving DecidableEq, Repr

/-- The reasons a step has no meaning. -/
inductive Refusal where
  /-- Raised by an arm of `exec` whose instruction has no meaning yet. Safe. No arm raises it. -/
  | notModelled (mnemonic : String)
  /-- Raised by HostRead and HostWrite while BUSY = 1 (R60: refused). Safe. -/
  | hostAccessWhileBusy
  /-- Raised by HostRead and HostWrite of a slot with FB_VALID = 0 (R60: refused). Safe. -/
  | hostAccessUnconfigured
  /-- Raised by HostRead and HostWrite outside the plane (R60, R250: refused). Safe. -/
  | hostAccessOutOfRange
  deriving DecidableEq, Repr

/-- A slot after reset (R42). -/
def FbSlot.reset : FbSlot := ⟨false, 0, 0⟩

/-- The machine right after reset (R42, R260, R262): every register 0, every cell unwritten, no command arrived. -/
def State.reset : State where
  fb := ⟨FbSlot.reset, FbSlot.reset, FbSlot.reset, FbSlot.reset⟩
  mbValid := false
  mbFb := 0
  mbX := 0
  mbY := 0
  faulted := false
  faultCode := 0
  faultCmd := 0
  cfgErr := 0
  busy := false
  store := []
  port := []
  schedule := []
  reply := none
  draws := 0

end Sys2Proof.Machine
end

