-- ==== Sys2Proof/Machine/Ops.lean ====
section
/-! DEFINITION. The named operations over registers and the sample store: integer arithmetic (00_scope.md R9 to R11),
the slot registers and plane dimensions (10_state.md R23, R24), `SRead` and `SWrite` (R12, R38, R39), LogicFault entry
(60_exceptions.md R236) and the UnsupportedInput status (R231). -/

namespace Sys2Proof.Machine

/-! ### Arithmetic -/

/-- `a >> k` on an integer: the arithmetic shift, floor(a / 2^k) (R9). -/
def sar (a : Int) (k : Nat) : Int := a / 2 ^ k

/-- `sext_16` (R10). -/
def sext16 (v : BitVec 16) : Int := v.toInt

/-- `clamp(v, lo, hi)` (R10). -/
def clamp (v lo hi : Int) : Int := max lo (min hi v)

/-- `clamp255(x)`, as a sample (R10). -/
def clamp255 (x : Int) : Sample := BitVec.ofInt 8 (clamp x 0 255)

/-- `avg2(x, y) = (x + y + 1) >> 1` (R11). -/
def avg2 (x y : Sample) : Sample := BitVec.ofNat 8 ((x.toNat + y.toNat + 1) / 2)

/-- `avg3(x, y, z) = (x + 2y + z + 2) >> 2` (R11). -/
def avg3 (x y z : Sample) : Sample := BitVec.ofNat 8 ((x.toNat + 2 * y.toNat + z.toNat + 2) / 4)

/-! ### Slot registers and plane dimensions -/

/-- The registers of slot `f`. -/
def FbFile.get (r : FbFile) (f : Slot) : FbSlot :=
  if f = 0 then r.fb0 else if f = 1 then r.fb1 else if f = 2 then r.fb2 else r.fb3

/-- Write the registers of slot `f`. -/
def FbFile.set (r : FbFile) (f : Slot) (v : FbSlot) : FbFile :=
  if f = 0 then { r with fb0 := v }
  else if f = 1 then { r with fb1 := v }
  else if f = 2 then { r with fb2 := v }
  else { r with fb3 := v }

/-- FB_VALID[f], FB_DW[f], FB_DH[f] (R23). -/
def State.slot (s : State) (f : Slot) : FbSlot := s.fb.get f

/-- Write FB_VALID[f], FB_DW[f], FB_DH[f]. -/
def State.setSlot (s : State) (f : Slot) (v : FbSlot) : State := { s with fb := s.fb.set f v }

/-- MB_W = (FB_DW + 15) / 16 (R24). -/
def FbSlot.mbW (r : FbSlot) : Nat := (r.dw.toNat + 15) / 16

/-- MB_H = (FB_DH + 15) / 16 (R24). -/
def FbSlot.mbH (r : FbSlot) : Nat := (r.dh.toNat + 15) / 16

/-- The edge of a macroblock in a plane: 16 luma samples, 8 chroma samples (R24). -/
def mbSize : Plane → Nat
  | .y => 16
  | .u => 8
  | .v => 8

/-- W(f, p), the storage width (R24). -/
def FbSlot.planeW (r : FbSlot) (p : Plane) : Nat := mbSize p * r.mbW

/-- H(f, p), the storage height (R24). -/
def FbSlot.planeH (r : FbSlot) (p : Plane) : Nat := mbSize p * r.mbH

/-- The cell exists: its slot is configured and its position lies in the plane (R51). -/
def State.addressable (s : State) (a : SampleAddr) : Bool :=
  (s.slot a.fb).valid && decide (a.x < (s.slot a.fb).planeW a.plane) && decide (a.y < (s.slot a.fb).planeH a.plane)

/-! ### The sample store -/

/-- Y, U, V as 0, 1, 2. -/
def planeIndex : Plane → Nat
  | .y => 0
  | .u => 1
  | .v => 2

/-- The key of a cell in the store: any injection of (f, p, x, y) will do, since the layout is not architectural
(R50; log entry 5). -/
def cellKey (a : SampleAddr) : Nat := 12 * Nat.pair a.x a.y + (3 * a.fb.toNat + planeIndex a.plane)

/-- The slot of a key. -/
def keySlot (k : Nat) : Nat := k % 12 / 3

/-- The value of a written cell; none for an unwritten one (R38). -/
def Memory.read : Memory → Nat → Option Sample
  | [], _ => none
  | (k', v) :: m, k => if k = k' then some v else Memory.read m k

/-- Make a cell written, keeping the keys rising (R38). -/
def Memory.write : Memory → Nat → Sample → Memory
  | [], k, v => [(k, v)]
  | (k', v') :: m, k, v =>
    if k < k' then (k, v) :: (k', v') :: m
    else if k = k' then (k, v) :: m
    else (k', v') :: Memory.write m k v

/-- Make every cell of slot `f` unwritten (R38, R112). -/
def Memory.clearSlot (m : Memory) (f : Slot) : Memory := m.filter (fun c => keySlot c.1 != f.toNat)

/-- The cell `SM[f][p][y][x]` (R38): its value, or none while it is unwritten. -/
def State.cell (s : State) (a : SampleAddr) : Option Sample := s.store.read (cellKey a)

/-- `SRead` (R12, R39): the value of a written cell; for an unwritten one the free value of draw number `j` of the
command or host step. Every read of one step has its own `j`, so no two reads share a draw (log entry 4). -/
def State.sread (s : State) (j : Nat) (a : SampleAddr) : Sample :=
  (s.cell a).getD (Config.freeSample (s.draws + j))

/-- `SWrite` (R12, R38). -/
def State.swrite (s : State) (a : SampleAddr) (v : Sample) : State :=
  { s with store := s.store.write (cellKey a) v }

/-- Make every cell of slot `f` unwritten (R38). -/
def State.clearSlot (s : State) (f : Slot) : State := { s with store := s.store.clearSlot f }

/-! ### Errors -/

/-- The FAULT_CODE of a LogicFault (R232). -/
def faultCodeOf : LogicFault → BitVec 4
  | .illegalOpcode => 1
  | .reservedBits => 2
  | .badPlane => 3
  | .badMode => 4
  | .badBlock => 5
  | .noMbContext => 6
  | .fbNotConfigured => 7
  | .refIsCurrent => 8
  | .mbOutOfRange => 9

/-- LogicFault entry (R236): the one way FAULTED, FAULT_CODE and FAULT_CMD are written. There is no handler and no
return (R238, R239); reset is the only way out (R260). -/
def raiseLogicFault (k : LogicFault) (w : CommandWord) (s : State) : State :=
  { s with faulted := true, faultCode := faultCodeOf k, faultCmd := w, busy := false }

/-- The CFG_ERR value of an UnsupportedInput (R28, R231). -/
def cfgErrOf : UnsupportedInput → BitVec 2
  | .oddDimension => 1
  | .zeroDimension => 2

/-- UnsupportedInput (R231): a status, not a fault. The command completes. -/
def raiseUnsupported (e : UnsupportedInput) (s : State) : State :=
  { s with cfgErr := cfgErrOf e }

end Sys2Proof.Machine
end

