-- ==== Sys2Proof/Machine/Operands.lean ====
section
/-! DEFINITION. The operand forms of the prediction commands: block geometry (40_raster_and_macroblock.md R116), the
neighbour mux (41_neighbour_mux.md R130 to R142), the clamped reference read (44_inter.md R203, R205), and writing a
predicted block. -/

namespace Sys2Proof.Machine

/-- A block of a plane: its slot, plane, edge size S and the position of its top-left sample (R14, R53). -/
structure Block where
  fb : Slot
  plane : Plane
  size : Nat
  x0 : Nat
  y0 : Nat
  deriving DecidableEq, Repr

/-- The address of cell (c, r) (R14). -/
def Block.addr (b : Block) (c r : Nat) : SampleAddr := ⟨b.fb, b.plane, b.x0 + c, b.y0 + r⟩

/-- The column of the block's tile in the tiling of its size (R53). -/
def Block.tileX (b : Block) : Nat := b.x0 / b.size

/-- The row of the block's tile in the tiling of its size (R53). -/
def Block.tileY (b : Block) : Nat := b.y0 / b.size

/-- The address lies in the block. -/
def Block.contains (b : Block) (a : SampleAddr) : Bool :=
  a.fb == b.fb && a.plane == b.plane && decide (b.x0 ≤ a.x) && decide (a.x < b.x0 + b.size) &&
    decide (b.y0 ≤ a.y) && decide (a.y < b.y0 + b.size)

/-- `geom` (R116): the block of the current macroblock that a command names, in the current raster. -/
def geom (s : State) (p : Plane) (sub : Bool) (blk : BitVec 4) : Block :=
  match p, sub with
  | .y, false => ⟨s.mbFb, .y, 16, 16 * s.mbX.toNat, 16 * s.mbY.toNat⟩
  | .y, true => ⟨s.mbFb, .y, 4, 16 * s.mbX.toNat + 4 * (blk.toNat % 4), 16 * s.mbY.toNat + 4 * (blk.toNat / 4)⟩
  | .u, false => ⟨s.mbFb, .u, 8, 8 * s.mbX.toNat, 8 * s.mbY.toNat⟩
  | .v, false => ⟨s.mbFb, .v, 8, 8 * s.mbX.toNat, 8 * s.mbY.toNat⟩
  | .u, true => ⟨s.mbFb, .u, 4, 8 * s.mbX.toNat + 4 * (blk.toNat % 2), 8 * s.mbY.toNat + 4 * (blk.toNat / 2)⟩
  | .v, true => ⟨s.mbFb, .v, 4, 8 * s.mbX.toNat + 4 * (blk.toNat % 2), 8 * s.mbY.toNat + 4 * (blk.toNat / 2)⟩

/-! ### The neighbour mux -/

/-- The Predictors bundle of a block (R130). It lives inside one command and is no state (R40). -/
structure Neighbours where
  size : Nat
  aPresent : Bool
  lPresent : Bool
  aboveRow : Nat → Sample
  leftColumn : Nat → Sample
  aboveLeft : Sample
  useRow : Bool
  ar : Nat → Sample
  br : Sample

/-- GW, the width of the tiling of size S of a plane (R53, R131). -/
def gridW (s : State) (b : Block) : Nat := (s.slot b.fb).planeW b.plane / b.size

/-- A_present (R131). -/
def aPresent (b : Block) : Bool := decide (0 < b.tileY)

/-- L_present (R131). -/
def lPresent (b : Block) : Bool := decide (0 < b.tileX)

/-- AL_present (R131). -/
def alPresent (b : Block) : Bool := decide (0 < b.tileX) && decide (0 < b.tileY)

/-- AR_present, for the tile (bx, by) (R131). -/
def arPresent (s : State) (b : Block) (tx ty : Nat) : Bool := decide (0 < ty) && decide (tx + 1 < gridW s b)

/-- Number of draws set apart for one intra command of size S: S above, S left, 1 corner, S above-right (log entry 4). -/
def intraDraws (size : Nat) : Nat := 3 * size + 1

/-- `above_row[i]` (R132). -/
def muxAboveRow (s : State) (b : Block) (i : Nat) : Sample :=
  if aPresent b then s.sread i ⟨b.fb, b.plane, b.size * b.tileX + i, b.size * b.tileY - 1⟩ else Config.syntheticAbove

/-- `left_column[i]` (R132). -/
def muxLeftColumn (s : State) (b : Block) (i : Nat) : Sample :=
  if lPresent b then s.sread (b.size + i) ⟨b.fb, b.plane, b.size * b.tileX - 1, b.size * b.tileY + i⟩
  else Config.syntheticLeft

/-- `above_left` (R133; 90_conflicts.md C1: the table wins). -/
def muxAboveLeft (s : State) (b : Block) : Sample :=
  if alPresent b then s.sread (2 * b.size) ⟨b.fb, b.plane, b.size * b.tileX - 1, b.size * b.tileY - 1⟩
  else if aPresent b then Config.syntheticLeft
  else Config.syntheticAbove

/-- `AR[i]` of the tile (bx, by) (R134; 90_conflicts.md C3: the last row of the above-right block). -/
def muxAr (s : State) (b : Block) (tx ty : Nat) (i : Nat) : Sample :=
  s.sread (2 * b.size + 1 + i) ⟨b.fb, b.plane, b.size * (tx + 1) + i, b.size * ty - 1⟩

/-- `BR` of the tile (bx, by) (R134). -/
def muxBr (s : State) (b : Block) (tx ty : Nat) : Sample :=
  if 0 < ty then s.sread (2 * b.size + 1) ⟨b.fb, b.plane, b.size * tx + b.size - 1, b.size * ty - 1⟩
  else Config.syntheticAbove

/-- The tile whose above-right region the block takes: its own, or that of sub-block (3, 0) of its macroblock where the
right-edge fix-up applies (R135). -/
def regionTile (s : State) (b : Block) (fix : Bool) : Nat × Nat :=
  if fix then (4 * s.mbX.toNat + 3, 4 * s.mbY.toNat) else (b.tileX, b.tileY)

/-- The neighbour mux (R130 to R135). Every neighbour is read at the start of the command (R139). -/
def mux (s : State) (b : Block) (fix : Bool) : Neighbours where
  size := b.size
  aPresent := aPresent b
  lPresent := lPresent b
  aboveRow := muxAboveRow s b
  leftColumn := muxLeftColumn s b
  aboveLeft := muxAboveLeft s b
  useRow := arPresent s b (regionTile s b fix).1 (regionTile s b fix).2
  ar := muxAr s b (regionTile s b fix).1 (regionTile s b fix).2
  br := muxBr s b (regionTile s b fix).1 (regionTile s b fix).2

/-- The fix-up applies to luma sub-blocks (3, 1), (3, 2) and (3, 3) (R135, R170). -/
def fixApplies (blk : BitVec 4) : Bool := blk.toNat % 4 == 3 && decide (1 ≤ blk.toNat / 4)

/-- `above(c)` for c in −1..2S−1 (R136). -/
def Neighbours.above (n : Neighbours) (c : Int) : Sample :=
  if c < 0 then n.aboveLeft
  else if c < n.size then n.aboveRow c.toNat
  else if n.useRow then n.ar (c.toNat - n.size)
  else n.br

/-- `left(r)` for r in −1..S−1 (R137). -/
def Neighbours.left (n : Neighbours) (r : Int) : Sample :=
  if r < 0 then n.aboveLeft else n.leftColumn r.toNat

/-- `east(n)` for n in 0..8, at S = 4 (R138). -/
def Neighbours.east (n : Neighbours) (k : Nat) : Sample :=
  if k ≤ 4 then n.left (3 - k) else n.above (k - 5)

/-! ### Reference reads -/

/-- The integer part and the phase of a motion-vector component: `MV >> 3` and `MV & 7` (R203). -/
def mvInt (mv : BitVec 16) : Int := sar (sext16 mv) 3

/-- The phase, in 0..7 (R203). -/
def mvPhase (mv : BitVec 16) : Nat := (sext16 mv % 8).toNat

/-- `R(x, y)` (R205): the clamped read of the reference plane, as read number `j` of the command. -/
def refRead (s : State) (ref : Slot) (p : Plane) (j : Nat) (x y : Int) : Sample :=
  s.sread j ⟨ref, p, (clamp x 0 ((s.slot ref).planeW p - 1)).toNat, (clamp y 0 ((s.slot ref).planeH p - 1)).toNat⟩

/-! ### Writing a predicted block -/

/-- The cells of an S×S block, in raster order (R14, R15). -/
def blockCells (size : Nat) : List (Nat × Nat) :=
  (List.range size).flatMap (fun r => (List.range size).map (fun c => (c, r)))

/-- `SWrite` of `pred[c][r]` to every cell of the block (R150, R170, R207). -/
def writeBlock (b : Block) (pred : Nat → Nat → Sample) (m : Memory) : Memory :=
  (blockCells b.size).foldl (fun m q => m.write (cellKey (b.addr q.1 q.2)) (pred q.1 q.2)) m

/-- The end of a prediction command: all its writes, after all its reads (R65), of which it made at most `reads`. -/
def predictBlock (b : Block) (pred : Nat → Nat → Sample) (reads : Nat) (s : State) : State :=
  { s with store := writeBlock b pred s.store, draws := s.draws + reads }

end Sys2Proof.Machine
end

