-- ==== Sys2Proof/Machine/Inter.lean ====
section
/-! DEFINITION. INTER, the separable six-tap inter predictor (44_inter.md R200 to R218). -/

namespace Sys2Proof.Machine

/-- The filter ROM (10_state.md R36), one row for each phase, taps t0 to t5. It is constant and no field of State (log
entry 16). -/
def filterRom : List (List Int) :=
  [[0, 0, 128, 0, 0, 0],
   [0, -6, 123, 12, -1, 0],
   [2, -11, 108, 36, -8, 1],
   [0, -9, 93, 50, -6, 0],
   [3, -16, 77, 77, -16, 3],
   [0, -6, 50, 93, -9, 0],
   [1, -8, 36, 108, -11, 2],
   [0, -1, 12, 123, -6, 0]]

/-- FILTER[phase][tap] (R36). -/
def filterTap (phase tap : Nat) : Int := (filterRom.getD phase []).getD tap 0

/-- The tap sum of six samples, before rounding (R208, R210). -/
def tapSum (ph : Nat) (s0 s1 s2 s3 s4 s5 : Sample) : Int :=
  s0.toNat * filterTap ph 0 + s1.toNat * filterTap ph 1 + s2.toNat * filterTap ph 2
    + s3.toNat * filterTap ph 3 + s4.toNat * filterTap ph 4 + s5.toNat * filterTap ph 5

/-- `Fk` (R208). -/
def filterSix (ph : Nat) (s0 s1 s2 s3 s4 s5 : Sample) : Sample :=
  clamp255 (sar (tapSum ph s0 s1 s2 s3 s4 s5 + 64) 7)

/-- The operands of INTER that its samples are computed from: the block, the reference slot and the vector (R200). -/
structure InterArgs where
  block : Block
  ref : Slot
  mvx : BitVec 16
  mvy : BitVec 16
  deriving DecidableEq, Repr

/-- `sc`, the reference column of the block's column 0 (R203). -/
def InterArgs.sc (a : InterArgs) : Int := a.block.x0 + mvInt a.mvx

/-- `sr`, the reference row of the block's row 0 (R203). -/
def InterArgs.sr (a : InterArgs) : Int := a.block.y0 + mvInt a.mvy

/-- The integer copy (R204). The read of cell (c, r) is number S·r + c of the command (log entry 4). -/
def copyCell (s : State) (a : InterArgs) (c r : Nat) : Sample :=
  refRead s a.ref a.block.plane (a.block.size * r + c) (a.sc + c) (a.sr + r)

/-- `s_i` of the intermediate entry T[c][t] (R206): its read is number 6·(S·t + c) + i of the command. -/
def tapRead (s : State) (a : InterArgs) (c t i : Nat) : Sample :=
  refRead s a.ref a.block.plane (6 * (a.block.size * t + c) + i) (a.sc + c - 2 + i) (a.sr - 2 + t)

/-- `T[c][t]`, the horizontal pass (R206). -/
def interT (s : State) (a : InterArgs) (c t : Nat) : Sample :=
  filterSix (mvPhase a.mvx) (tapRead s a c t 0) (tapRead s a c t 1) (tapRead s a c t 2) (tapRead s a c t 3)
    (tapRead s a c t 4) (tapRead s a c t 5)

/-- The vertical pass over the intermediate buffer (R207). -/
def filterCell (s : State) (a : InterArgs) (c r : Nat) : Sample :=
  filterSix (mvPhase a.mvy) (interT s a c r) (interT s a c (r + 1)) (interT s a c (r + 2)) (interT s a c (r + 3))
    (interT s a c (r + 4)) (interT s a c (r + 5))

/-- Both phases are 0, and the block is copied (R204). -/
def isCopy (a : InterArgs) : Bool := mvPhase a.mvx == 0 && mvPhase a.mvy == 0

/-- `pred[c][r]` of INTER (R200). -/
def predInter (s : State) (a : InterArgs) (c r : Nat) : Sample :=
  if isCopy a then copyCell s a c r else filterCell s a c r

/-- How many reference reads INTER makes: S·S for a copy, six for each of the S·(S + 5) intermediate entries else. -/
def interDraws (a : InterArgs) : Nat :=
  if isCopy a then a.block.size * a.block.size else 6 * (a.block.size * (a.block.size + 5))

/-- INTER (R200), its checks on state in the order of R201. -/
def execInter (ref : Slot) (plane : Plane) (sub : Bool) (blk : BitVec 4) (mvx mvy : BitVec 16) (s : State) :
    Host.Outcome State Fault Refusal :=
  let w := encode (.inter ref plane sub blk mvx mvy)
  if s.mbValid = false then .next (raiseLogicFault .noMbContext w s)
  else if (s.slot ref).valid = false then .next (raiseLogicFault .fbNotConfigured w s)
  else if ref = s.mbFb then .next (raiseLogicFault .refIsCurrent w s)
  else
    let a : InterArgs := ⟨geom s plane sub blk, ref, mvx, mvy⟩
    .next (predictBlock a.block (predInter s a) (interDraws a) s)

end Sys2Proof.Machine
end

