-- ==== Sys2Proof/Machine/IntraMb.lean ====
section
/-! DEFINITION. The macroblock-level intra modes INTRA_MB.DC, .V, .H and .TM (42_intra_mb.md R150 to R154). -/

namespace Sys2Proof.Machine

/-- The sum of the S samples `f 0 .. f (S−1)` (R151). -/
def sumSamples (size : Nat) (f : Nat → Sample) : Nat := ((List.range size).map (fun i => (f i).toNat)).sum

/-- `log2S` at S = 16 and S = 8 (R150). -/
def log2S (size : Nat) : Nat := if size = 16 then 4 else 3

/-- The value of INTRA_MB.DC (R151): synthetic values never enter the sum. -/
def dcValue (n : Neighbours) : Sample :=
  if n.aPresent && n.lPresent then
    BitVec.ofNat 8
      ((sumSamples n.size n.aboveRow + sumSamples n.size n.leftColumn + 2 ^ log2S n.size) / 2 ^ (log2S n.size + 1))
  else if n.aPresent then
    BitVec.ofNat 8 ((sumSamples n.size n.aboveRow + 2 ^ (log2S n.size - 1)) / 2 ^ log2S n.size)
  else if n.lPresent then
    BitVec.ofNat 8 ((sumSamples n.size n.leftColumn + 2 ^ (log2S n.size - 1)) / 2 ^ log2S n.size)
  else Config.dcDefault

/-- DC (R151): every cell gets the one value. -/
def predDc (n : Neighbours) : Nat → Nat → Sample :=
  let v := dcValue n
  fun _ _ => v

/-- V (R152). -/
def predV (n : Neighbours) (c _r : Nat) : Sample := n.aboveRow c

/-- H (R153). -/
def predH (n : Neighbours) (_c r : Nat) : Sample := n.leftColumn r

/-- TM (R154), the same formula at every size (R172). -/
def predTm (n : Neighbours) (c r : Nat) : Sample :=
  clamp255 ((n.leftColumn r).toNat + (n.aboveRow c).toNat - n.aboveLeft.toNat)

/-- The common part of INTRA_MB (R150): `rule` gives the cells from the neighbours, `w` is the command's word. -/
def intraMb (w : CommandWord) (p : Plane) (rule : Neighbours → Nat → Nat → Sample) (s : State) :
    Host.Outcome State Fault Refusal :=
  if s.mbValid = false then .next (raiseLogicFault .noMbContext w s)
  else
    let b := geom s p false 0
    .next (predictBlock b (rule (mux s b false)) (intraDraws b.size) s)

/-- INTRA_MB.DC (R151). -/
def execIntraMbDc (plane : Plane) (s : State) : Host.Outcome State Fault Refusal :=
  intraMb (encode (.intraMbDc plane)) plane predDc s

/-- INTRA_MB.V (R152). -/
def execIntraMbV (plane : Plane) (s : State) : Host.Outcome State Fault Refusal :=
  intraMb (encode (.intraMbV plane)) plane predV s

/-- INTRA_MB.H (R153). -/
def execIntraMbH (plane : Plane) (s : State) : Host.Outcome State Fault Refusal :=
  intraMb (encode (.intraMbH plane)) plane predH s

/-- INTRA_MB.TM (R154). -/
def execIntraMbTm (plane : Plane) (s : State) : Host.Outcome State Fault Refusal :=
  intraMb (encode (.intraMbTm plane)) plane predTm s

end Sys2Proof.Machine
end

