-- ==== Sys2Proof/Machine/IntraB.lean ====
section
/-! DEFINITION. The ten 4×4 luma modes INTRA_B.DC, .TM, .VE, .HE, .LD, .RD, .VR, .VL, .HD and .HU (43_intra_b.md R170 to
R180). A table is written row by row, as the spec's grids are. The tables of LD, RD, VR, VL, HD and HU are the VP8
definition's, not the source's (93_implementation_defined.md K1 to K6; log entry 11). -/

namespace Sys2Proof.Machine

/-- Cell (c, r) of a 4×4 grid given by its rows. -/
def gridCell (rows : List (List Sample)) (c r : Nat) : Sample := (rows.getD r []).getD c 0

/-- B_DC (R171): the both-present formula, synthetic borders included (90_conflicts.md C4). -/
def predBDc (n : Neighbours) : Nat → Nat → Sample :=
  let v := BitVec.ofNat 8 ((sumSamples 4 n.aboveRow + sumSamples 4 n.leftColumn + 4) / 8)
  fun _ _ => v

/-- B_VE (R173): column c is avg3(A_{c−1}, A_c, A_{c+1}). -/
def predBVe (n : Neighbours) (c _r : Nat) : Sample := avg3 (n.above (c - 1)) (n.above c) (n.above (c + 1))

/-- B_HE (R174): the last row repeats L3. -/
def predBHe (n : Neighbours) (_c r : Nat) : Sample :=
  if r < 3 then avg3 (n.left (r - 1)) (n.left r) (n.left (r + 1)) else avg3 (n.left 2) (n.left 3) (n.left 3)

/-- B_LD (R175): with k = c + r, avg3(A_k, A_{k+1}, A_{k+2}); the last cell repeats A7. -/
def predBLd (n : Neighbours) (c r : Nat) : Sample :=
  if c + r ≤ 5 then avg3 (n.above (c + r)) (n.above (c + r + 1)) (n.above (c + r + 2))
  else avg3 (n.above 6) (n.above 7) (n.above 7)

/-- B_RD (R176): with k = 4 − r + c, avg3(E_{k−1}, E_k, E_{k+1}). -/
def predBRd (n : Neighbours) (c r : Nat) : Sample :=
  avg3 (n.east (4 + c - r - 1)) (n.east (4 + c - r)) (n.east (4 + c - r + 1))

/-- B_VR (R177). -/
def predBVr (n : Neighbours) : Nat → Nat → Sample :=
  let a := n.above
  let l := n.left
  let p := n.aboveLeft
  gridCell
    [[avg2 p (a 0), avg2 (a 0) (a 1), avg2 (a 1) (a 2), avg2 (a 2) (a 3)],
     [avg3 (l 0) p (a 0), avg3 p (a 0) (a 1), avg3 (a 0) (a 1) (a 2), avg3 (a 1) (a 2) (a 3)],
     [avg3 (l 1) (l 0) p, avg2 p (a 0), avg2 (a 0) (a 1), avg2 (a 1) (a 2)],
     [avg3 (l 2) (l 1) (l 0), avg3 (l 0) p (a 0), avg3 p (a 0) (a 1), avg3 (a 0) (a 1) (a 2)]]

/-- B_VL (R178), its two out-of-pattern cells (3, 2) and (3, 3) included. -/
def predBVl (n : Neighbours) : Nat → Nat → Sample :=
  let a := n.above
  gridCell
    [[avg2 (a 0) (a 1), avg2 (a 1) (a 2), avg2 (a 2) (a 3), avg2 (a 3) (a 4)],
     [avg3 (a 0) (a 1) (a 2), avg3 (a 1) (a 2) (a 3), avg3 (a 2) (a 3) (a 4), avg3 (a 3) (a 4) (a 5)],
     [avg2 (a 1) (a 2), avg2 (a 2) (a 3), avg2 (a 3) (a 4), avg3 (a 4) (a 5) (a 6)],
     [avg3 (a 1) (a 2) (a 3), avg3 (a 2) (a 3) (a 4), avg3 (a 3) (a 4) (a 5), avg3 (a 5) (a 6) (a 7)]]

/-- B_HD (R179). -/
def predBHd (n : Neighbours) : Nat → Nat → Sample :=
  let a := n.above
  let l := n.left
  let p := n.aboveLeft
  gridCell
    [[avg2 (l 0) p, avg3 (l 0) p (a 0), avg3 p (a 0) (a 1), avg3 (a 0) (a 1) (a 2)],
     [avg2 (l 1) (l 0), avg3 (l 1) (l 0) p, avg2 (l 0) p, avg3 (l 0) p (a 0)],
     [avg2 (l 2) (l 1), avg3 (l 2) (l 1) (l 0), avg2 (l 1) (l 0), avg3 (l 1) (l 0) p],
     [avg2 (l 3) (l 2), avg3 (l 3) (l 2) (l 1), avg2 (l 2) (l 1), avg3 (l 2) (l 1) (l 0)]]

/-- B_HU (R180). -/
def predBHu (n : Neighbours) : Nat → Nat → Sample :=
  let l := n.left
  gridCell
    [[avg2 (l 0) (l 1), avg3 (l 0) (l 1) (l 2), avg2 (l 1) (l 2), avg3 (l 1) (l 2) (l 3)],
     [avg2 (l 1) (l 2), avg3 (l 1) (l 2) (l 3), avg2 (l 2) (l 3), avg3 (l 2) (l 3) (l 3)],
     [avg2 (l 2) (l 3), avg3 (l 2) (l 3) (l 3), l 3, l 3],
     [l 3, l 3, l 3, l 3]]

/-- The common part of INTRA_B (R170). -/
def intraB (w : CommandWord) (blk : BitVec 4) (rule : Neighbours → Nat → Nat → Sample) (s : State) :
    Host.Outcome State Fault Refusal :=
  if s.mbValid = false then .next (raiseLogicFault .noMbContext w s)
  else
    let b := geom s .y true blk
    .next (predictBlock b (rule (mux s b (fixApplies blk))) (intraDraws b.size) s)

/-- INTRA_B.DC (R171). -/
def execIntraBDc (blk : BitVec 4) (s : State) : Host.Outcome State Fault Refusal :=
  intraB (encode (.intraBDc blk)) blk predBDc s

/-- INTRA_B.TM (R172): the formula of R154 at S = 4. -/
def execIntraBTm (blk : BitVec 4) (s : State) : Host.Outcome State Fault Refusal :=
  intraB (encode (.intraBTm blk)) blk predTm s

/-- INTRA_B.VE (R173). -/
def execIntraBVe (blk : BitVec 4) (s : State) : Host.Outcome State Fault Refusal :=
  intraB (encode (.intraBVe blk)) blk predBVe s

/-- INTRA_B.HE (R174). -/
def execIntraBHe (blk : BitVec 4) (s : State) : Host.Outcome State Fault Refusal :=
  intraB (encode (.intraBHe blk)) blk predBHe s

/-- INTRA_B.LD (R175). -/
def execIntraBLd (blk : BitVec 4) (s : State) : Host.Outcome State Fault Refusal :=
  intraB (encode (.intraBLd blk)) blk predBLd s

/-- INTRA_B.RD (R176). -/
def execIntraBRd (blk : BitVec 4) (s : State) : Host.Outcome State Fault Refusal :=
  intraB (encode (.intraBRd blk)) blk predBRd s

/-- INTRA_B.VR (R177). -/
def execIntraBVr (blk : BitVec 4) (s : State) : Host.Outcome State Fault Refusal :=
  intraB (encode (.intraBVr blk)) blk predBVr s

/-- INTRA_B.VL (R178). -/
def execIntraBVl (blk : BitVec 4) (s : State) : Host.Outcome State Fault Refusal :=
  intraB (encode (.intraBVl blk)) blk predBVl s

/-- INTRA_B.HD (R179). -/
def execIntraBHd (blk : BitVec 4) (s : State) : Host.Outcome State Fault Refusal :=
  intraB (encode (.intraBHd blk)) blk predBHd s

/-- INTRA_B.HU (R180). -/
def execIntraBHu (blk : BitVec 4) (s : State) : Host.Outcome State Fault Refusal :=
  intraB (encode (.intraBHu blk)) blk predBHu s

end Sys2Proof.Machine
end

