-- ==== Sys2Proof/Machine/Raster.lean ====
section
/-! DEFINITION. The family of raster configuration and macroblock context: CFG_RASTER and BEGIN_MB
(40_raster_and_macroblock.md R110 to R115). -/

namespace Sys2Proof.Machine

/-- The raster of slot `f` ends: MB_VALID is cleared if it is the current raster, the slot's registers become 0 and its
cells unwritten (R112, decisions D7, D15). -/
def endRaster (f : Slot) (s : State) : State :=
  { (s.setSlot f FbSlot.reset).clearSlot f with mbValid := s.mbValid && s.mbFb != f }

/-- The new raster of slot `f` (R112): display dimensions kept verbatim, CFG_ERR cleared. -/
def beginRaster (f : Slot) (dw dh : BitVec 14) (s : State) : State :=
  { s.setSlot f ⟨true, dw, dh⟩ with cfgErr := 0 }

/-- CFG_RASTER (R112): the parity check first, then the zero check; a failure leaves the slot unconfigured. -/
def execCfgRaster (fb : Slot) (dw dh : BitVec 14) (s : State) : Host.Outcome State Fault Refusal :=
  if dw.toNat % 2 = 1 ∨ dh.toNat % 2 = 1 then .next (raiseUnsupported .oddDimension (endRaster fb s))
  else if dw.toNat = 0 ∨ dh.toNat = 0 then .next (raiseUnsupported .zeroDimension (endRaster fb s))
  else .next (beginRaster fb dw dh (endRaster fb s))

/-- The macroblock context of BEGIN_MB (R114). -/
def setContext (fb : Slot) (mbx mby : BitVec 10) (s : State) : State :=
  { s with mbValid := true, mbFb := fb, mbX := mbx, mbY := mby }

/-- BEGIN_MB (R114). The word a LogicFault records is the command's own, `encode` of it (log entry 6). -/
def execBeginMb (fb : Slot) (mbx mby : BitVec 10) (s : State) : Host.Outcome State Fault Refusal :=
  if (s.slot fb).valid = false then .next (raiseLogicFault .fbNotConfigured (encode (.beginMb fb mbx mby)) s)
  else if (s.slot fb).mbW ≤ mbx.toNat ∨ (s.slot fb).mbH ≤ mby.toNat then
    .next (raiseLogicFault .mbOutOfRange (encode (.beginMb fb mbx mby)) s)
  else .next (setContext fb mbx mby s)

end Sys2Proof.Machine
end

