-- ==== Sys2Proof/Machine/Dispatch.lean ====
section
/-! DEFINITION. The dispatch of a decoded command to its meaning, one arm for each row of spec/opcode_table.json. -/

namespace Sys2Proof.Machine

def exec (i : Instr) (s : State) : Host.Outcome State Fault Refusal :=
  match i with
  | .cfgRaster fb dw dh => Sys2Proof.Machine.execCfgRaster fb dw dh s
  | .beginMb fb mbx mby => Sys2Proof.Machine.execBeginMb fb mbx mby s
  | .intraMbDc plane => Sys2Proof.Machine.execIntraMbDc plane s
  | .intraMbV plane => Sys2Proof.Machine.execIntraMbV plane s
  | .intraMbH plane => Sys2Proof.Machine.execIntraMbH plane s
  | .intraMbTm plane => Sys2Proof.Machine.execIntraMbTm plane s
  | .intraBDc blk => Sys2Proof.Machine.execIntraBDc blk s
  | .intraBTm blk => Sys2Proof.Machine.execIntraBTm blk s
  | .intraBVe blk => Sys2Proof.Machine.execIntraBVe blk s
  | .intraBHe blk => Sys2Proof.Machine.execIntraBHe blk s
  | .intraBLd blk => Sys2Proof.Machine.execIntraBLd blk s
  | .intraBRd blk => Sys2Proof.Machine.execIntraBRd blk s
  | .intraBVr blk => Sys2Proof.Machine.execIntraBVr blk s
  | .intraBVl blk => Sys2Proof.Machine.execIntraBVl blk s
  | .intraBHd blk => Sys2Proof.Machine.execIntraBHd blk s
  | .intraBHu blk => Sys2Proof.Machine.execIntraBHu blk s
  | .inter ref plane sub blk mvx mvy => Sys2Proof.Machine.execInter ref plane sub blk mvx mvy s

end Sys2Proof.Machine
end

