-- ==== Sys2Proof/Machine/Flags.lean ====
section
/-! DEFINITION. The status bits of the core (10_state.md R22: it has no arithmetic flags): the read-only status block
(R30 to R34) and the output levels (R41). -/

namespace Sys2Proof.Machine

/-- A 1-bit field. -/
def bit (b : Bool) : BitVec 1 := BitVec.ofBool b

/-- STATUS, offset 0x00 (R31). -/
def statusReg (s : State) : StatusWord :=
  0#20 ++ s.faultCode ++ 0#2 ++ s.cfgErr ++ 0#1 ++ bit s.mbValid ++ bit s.busy ++ bit s.faulted

/-- MB_CTX, offset 0x04 (R32). -/
def mbCtxReg (s : State) : StatusWord := 0#2 ++ s.mbFb ++ 0#2 ++ s.mbX ++ 0#6 ++ s.mbY

/-- FAULT_CMD_LO, offset 0x08 (R33). -/
def faultCmdLoReg (s : State) : StatusWord := s.faultCmd.extractLsb' 0 32

/-- FAULT_CMD_HI, offset 0x0C (R33). -/
def faultCmdHiReg (s : State) : StatusWord := s.faultCmd.extractLsb' 32 32

/-- FB_DIMf, offset 0x10 + 4·f (R34). -/
def fbDimReg (s : State) (f : Slot) : StatusWord :=
  bit (s.slot f).valid ++ 0#3 ++ (s.slot f).dw ++ (s.slot f).dh

/-- The status block: the word at a byte offset; 0 at an unlisted or unaligned one (R30). -/
def statusBlock (s : State) (offset : Nat) : StatusWord :=
  match offset with
  | 0x00 => statusReg s
  | 0x04 => mbCtxReg s
  | 0x08 => faultCmdLoReg s
  | 0x0C => faultCmdHiReg s
  | 0x10 => fbDimReg s 0
  | 0x14 => fbDimReg s 1
  | 0x18 => fbDimReg s 2
  | 0x1C => fbDimReg s 3
  | _ => 0

/-- The output `fault_o` (R41). -/
def faultO (s : State) : Bool := s.faulted

/-- The output `busy_o` (R41). -/
def busyO (s : State) : Bool := s.busy

end Sys2Proof.Machine
end

