-- ==== Sys2Proof/Machine/Perform.lean ====
section
/-! DEFINITION. What one step of the machine does around `exec`: the core performing the front command of its port
(00_scope.md R3, 30_encoding.md R95), and the steps of the host and the reset input (20_memory.md R60,
70_reset_and_hazards.md R261, R274). -/

namespace Sys2Proof.Machine

/-- BUSY is 1 while a command is performed (R29; log entry 7). -/
def beginCommand (s : State) : State := { s with busy := true }

/-- BUSY is 0 again when the command has ended (R29). -/
def endCommand (s : State) : State := { s with busy := false }

/-- The command's end, on the outcome of its meaning. -/
def finish : Host.Outcome State Fault Refusal → Host.Outcome State Fault Refusal
  | .next s => .next (endCommand s)
  | .fault r => .fault r
  | .refused r => .refused r

/-- Perform one command word: decode it, then run its meaning or take the LogicFault of the decoder (R95, R236). -/
def perform (w : CommandWord) (s : State) : Host.Outcome State Fault Refusal :=
  match decode w with
  | .ok i => finish (exec i (beginCommand s))
  | .error k => finish (.next (raiseLogicFault k w (beginCommand s)))

/-- The core's turn (R274): a command step is enabled when FAULTED = 0 and a command has arrived. With no command the
core is idle (R248; log entry 2); while FAULTED = 1 no command is performed and nothing changes (R237; log entry 3). -/
def coreTurn (s : State) : Host.Outcome State Fault Refusal :=
  if s.faulted then .next s
  else
    match s.port with
    | [] => .next s
    | w :: rest => perform w { s with port := rest }

/-- The conditions of a host access to the sample store, and the refusal of one that breaks them (R60, R268). -/
def hostAccess (a : SampleAddr) (s : State) (ok : State) : Host.Outcome State Fault Refusal :=
  if s.busy then .refused .hostAccessWhileBusy
  else if (s.slot a.fb).valid = false then .refused .hostAccessUnconfigured
  else if s.addressable a = false then .refused .hostAccessOutOfRange
  else .next ok

/-- HostRead (R60): returns the cell's value, or a draw if it is unwritten; the cell stays as it is (R39). -/
def hostRead (a : SampleAddr) (s : State) : Host.Outcome State Fault Refusal :=
  hostAccess a s { s with reply := some (.sample (s.sread 0 a)), draws := s.draws + 1 }

/-- HostWrite (R60): makes the cell written. -/
def hostWrite (a : SampleAddr) (v : Sample) (s : State) : Host.Outcome State Fault Refusal :=
  hostAccess a s (s.swrite a v)

/-- A status read (R30): always enabled, no side effect on the core. -/
def statusRead (offset : Nat) (s : State) : Host.Outcome State Fault Refusal :=
  .next { s with reply := some (.status (statusBlock s offset)) }

/-- The reset event (R260, R261): every state element of R42 at its reset value, and the commands that have arrived
discarded. What stays is the model's own: the turns to come, the last reply and the count of used draws (log entry 9). -/
def resetEvent (s : State) : State :=
  { State.reset with schedule := s.schedule, reply := s.reply, draws := s.draws }

/-- One event of the total order of R59, already taken off the schedule. -/
def occur (e : Event) (s : State) : Host.Outcome State Fault Refusal :=
  match e with
  | .core => coreTurn s
  | .issue w => .next { s with port := s.port ++ [w] }
  | .hostRead a => hostRead a s
  | .hostWrite a v => hostWrite a v s
  | .statusRead offset => statusRead offset s
  | .statusWrite _ _ => .next s
  | .resetInput => .next (resetEvent s)

/-- One step: the next scheduled event, or, when none is scheduled, the core's turn. A faulted core with nothing
scheduled is stuck (R237, R273; log entry 3). -/
def stepMachine (s : State) : Host.Outcome State Fault Refusal :=
  match s.schedule with
  | e :: rest => occur e { s with schedule := rest }
  | [] => if s.faulted then .fault .coreStuck else coreTurn s

/-- Put a command word at the front of the port and give the core the next turn (log entry 12). -/
def arriveFirst (w : CommandWord) (s : State) : State :=
  { s with port := w :: s.port, schedule := .core :: s.schedule }

end Sys2Proof.Machine
end

