-- ==== Sys2Proof/Machine/Step.lean ====
section
/-! DEFINITION. The step function, and placing a command where the next step takes it. -/

namespace Sys2Proof.Machine

/-- One step of the machine (R59, R274). -/
def step (s : State) : Host.Outcome State Fault Refusal := stepMachine s

/-- `s` with the command word `w`, its bits from `nbits` up 0, as the next command the core performs (log entry 12).
From a state with FAULTED = 1 the core performs no command (R237), and this changes nothing about that. -/
def State.withFetchWord (s : State) (nbits w : Nat) : State := arriveFirst (BitVec.ofNat 64 (w % 2 ^ nbits)) s

end Sys2Proof.Machine
end

