-- ==== Sys2Proof/Machine/Assembler.lean ====
section
/-! DEFINITION. The assembler syntax of the spec (30_encoding.md R97) and its one pseudo-instruction `copy` (R98): from
a line of text to a line's syntax tree, and from there to the command it stands for. -/

namespace Sys2Proof.Machine

/-- The modes of `ipred.` (R91, R97). -/
inductive MbMode where
  | dc
  | v
  | h
  | tm
  deriving DecidableEq, Repr

/-- The modes of `bpred.` (R92, R97). -/
inductive BMode where
  | dc
  | tm
  | ve
  | he
  | ld
  | rd
  | vr
  | vl
  | hd
  | hu
  deriving DecidableEq, Repr

/-- The block operand of `inter` and `copy`: `mb` or `sub BLK` (R97). -/
inductive AsmBlock where
  | mb
  | sub (blk : Nat)
  deriving DecidableEq, Repr

/-- One line of assembler (R97, R98), its numbers not yet checked against their fields. -/
inductive AsmLine where
  | cfg (fb : Slot) (dw dh : Nat)
  | mb (fb : Slot) (mbx mby : Nat)
  | ipred (m : MbMode) (p : Plane)
  | bpred (m : BMode) (blk : Nat)
  | inter (p : Plane) (b : AsmBlock) (ref : Slot) (mvx mvy : Int)
  | copy (p : Plane) (b : AsmBlock) (ref : Slot) (dx dy : Int)
  deriving DecidableEq, Repr

/-! ### From a line to its command -/

/-- A number as an unsigned field; none if it does not fit. -/
def natField (len n : Nat) : Option (BitVec len) := if n < 2 ^ len then some (BitVec.ofNat len n) else none

/-- A number as a 16-bit two's complement field; none if it does not fit (R94). -/
def mvField (v : Int) : Option (BitVec 16) :=
  if -32768 ≤ v ∧ v ≤ 32767 then some (BitVec.ofInt 16 v) else none

/-- `ipred.<m>` (R97). -/
def ipredInstr : MbMode → Plane → Instr
  | .dc, p => .intraMbDc p
  | .v, p => .intraMbV p
  | .h, p => .intraMbH p
  | .tm, p => .intraMbTm p

/-- `bpred.<m>` (R97). -/
def bpredInstr : BMode → BitVec 4 → Instr
  | .dc, k => .intraBDc k
  | .tm, k => .intraBTm k
  | .ve, k => .intraBVe k
  | .he, k => .intraBHe k
  | .ld, k => .intraBLd k
  | .rd, k => .intraBRd k
  | .vr, k => .intraBVr k
  | .vl, k => .intraBVl k
  | .hd, k => .intraBHd k
  | .hu, k => .intraBHu k

/-- SUB and BLK of a block operand (R97): `mb` is SUB = 0 and BLK = 0. -/
def asmBlockFields : AsmBlock → Option (Bool × BitVec 4)
  | .mb => some (false, 0)
  | .sub blk => (natField 4 blk).map (fun k => (true, k))

/-- The command of `inter` (R97); none where BLK is no block of the plane (R93). -/
def assembleInter (p : Plane) (b : AsmBlock) (ref : Slot) (mvx mvy : Int) : Option Instr := do
  let (sub, blk) ← asmBlockFields b
  let x ← mvField mvx
  let y ← mvField mvy
  if interBlkOk p sub blk then some (.inter ref p sub blk x y) else none

/-- The command a line stands for; none if a number does not fit its field. `copy` is `inter` with a displacement of
8·DX, 8·DY (R98): the ranges −4096..4095 of DX and DY are those for which the products fit. -/
def assemble : AsmLine → Option Instr
  | .cfg fb dw dh => do
    let w ← natField 14 dw
    let h ← natField 14 dh
    some (.cfgRaster fb w h)
  | .mb fb mbx mby => do
    let x ← natField 10 mbx
    let y ← natField 10 mby
    some (.beginMb fb x y)
  | .ipred m p => some (ipredInstr m p)
  | .bpred m blk => (natField 4 blk).map (bpredInstr m)
  | .inter p b ref mvx mvy => assembleInter p b ref mvx mvy
  | .copy p b ref dx dy => assembleInter p b ref (8 * dx) (8 * dy)

/-! ### From text to a line -/

/-- The text before the first `;` (R97). -/
def dropComment (cs : List Char) : List Char := cs.takeWhile (fun c => c != ';')

/-- Add a finished word, if there is one, before the words after it. -/
def pushWord (word : List Char) (rest : List (List Char)) : List (List Char) :=
  if word.isEmpty then rest else word.reverse :: rest

/-- The words of a line: split at blanks, a comma being a word of its own. `word` is the word begun, reversed. -/
def splitWords : List Char → List Char → List (List Char)
  | [], word => pushWord word []
  | c :: cs, word =>
    if c = ' ' ∨ c = '\t' then pushWord word (splitWords cs [])
    else if c = ',' then pushWord word ([','] :: splitWords cs [])
    else splitWords cs (c :: word)

/-- A digit of base 10 or 16. -/
def digitValue (base : Nat) (c : Char) : Option Nat :=
  let v :=
    if '0'.toNat ≤ c.toNat ∧ c.toNat ≤ '9'.toNat then c.toNat - '0'.toNat
    else if 'a'.toNat ≤ c.toNat ∧ c.toNat ≤ 'f'.toNat then c.toNat - 'a'.toNat + 10
    else if 'A'.toNat ≤ c.toNat ∧ c.toNat ≤ 'F'.toNat then c.toNat - 'A'.toNat + 10
    else 16
  if v < base then some v else none

/-- The digits of a number, after the value `acc` of those before. -/
def readDigits (base : Nat) : List Char → Nat → Option Nat
  | [], acc => some acc
  | c :: cs, acc =>
    match digitValue base c with
    | some d => readDigits base cs (base * acc + d)
    | none => none

/-- A decimal or `0x` hexadecimal number (R97). -/
def readNat : List Char → Option Nat
  | [] => none
  | ['0', 'x'] => none
  | '0' :: 'x' :: cs => readDigits 16 cs 0
  | cs => readDigits 10 cs 0

/-- A number that may be negative (R97: motion-vector values). -/
def readInt : List Char → Option Int
  | '-' :: cs => (readNat cs).map (fun n => -(n : Int))
  | cs => (readNat cs).map (fun n => (n : Int))

/-- `fb0`..`fb3` (R97). -/
def readSlot : List Char → Option Slot
  | ['f', 'b', '0'] => some 0
  | ['f', 'b', '1'] => some 1
  | ['f', 'b', '2'] => some 2
  | ['f', 'b', '3'] => some 3
  | _ => none

/-- `y`, `u`, `v` (R97). -/
def readPlane : List Char → Option Plane
  | ['y'] => some .y
  | ['u'] => some .u
  | ['v'] => some .v
  | _ => none

/-- The mode of `ipred.` (R97). -/
def readMbMode : List Char → Option MbMode
  | ['d', 'c'] => some .dc
  | ['v'] => some .v
  | ['h'] => some .h
  | ['t', 'm'] => some .tm
  | _ => none

/-- The mode of `bpred.` (R97). -/
def readBMode : List Char → Option BMode
  | ['d', 'c'] => some .dc
  | ['t', 'm'] => some .tm
  | ['v', 'e'] => some .ve
  | ['h', 'e'] => some .he
  | ['l', 'd'] => some .ld
  | ['r', 'd'] => some .rd
  | ['v', 'r'] => some .vr
  | ['v', 'l'] => some .vl
  | ['h', 'd'] => some .hd
  | ['h', 'u'] => some .hu
  | _ => none

/-- `mb` or `sub BLK`, and the words after it (R97). -/
def readBlock : List (List Char) → Option (AsmBlock × List (List Char))
  | ['m', 'b'] :: rest => some (.mb, rest)
  | ['s', 'u', 'b'] :: k :: rest => (readNat k).map (fun n => (.sub n, rest))
  | _ => none

/-- The operands of `inter` and `copy` (R97, R98). -/
def readMotion (mk : Plane → AsmBlock → Slot → Int → Int → AsmLine) : List (List Char) → Option AsmLine
  | p :: [','] :: rest =>
    match readPlane p, readBlock rest with
    | some plane, some (b, [[','], f, [','], x, [','], y]) => do
      let ref ← readSlot f
      let mx ← readInt x
      let my ← readInt y
      some (mk plane b ref mx my)
    | _, _ => none
  | _ => none

/-- The words of one line (R97, R98). -/
def parseWords : List (List Char) → Option AsmLine
  | ['c', 'f', 'g'] :: [f, [','], w, [','], h] => do
    let fb ← readSlot f
    let dw ← readNat w
    let dh ← readNat h
    some (.cfg fb dw dh)
  | ['m', 'b'] :: [f, [','], x, [','], y] => do
    let fb ← readSlot f
    let mbx ← readNat x
    let mby ← readNat y
    some (.mb fb mbx mby)
  | ('i' :: 'p' :: 'r' :: 'e' :: 'd' :: '.' :: m) :: [p] => do
    let mode ← readMbMode m
    let plane ← readPlane p
    some (.ipred mode plane)
  | ('b' :: 'p' :: 'r' :: 'e' :: 'd' :: '.' :: m) :: [k] => do
    let mode ← readBMode m
    let blk ← readNat k
    some (.bpred mode blk)
  | ['i', 'n', 't', 'e', 'r'] :: rest => readMotion .inter rest
  | ['c', 'o', 'p', 'y'] :: rest => readMotion .copy rest
  | _ => none

/-- One line of assembler text (R97). -/
def parseLine (text : String) : Option AsmLine := parseWords (splitWords (dropComment text.toList) [])

/-- The command word of one line of assembler text (R97 to R99). -/
def assembleText (text : String) : Option CommandWord := (parseLine text).bind (fun l => (assemble l).map encode)

end Sys2Proof.Machine
end

