-- ==== Sys2Proof/Safety.lean ====
section
/-! DEFINITION. The terms that claims use: what a good run is (70_reset_and_hazards.md R273), the invariant of the
machine, and which parts of the state two states share. -/

namespace Sys2Proof.Machine

/-- Runs end well (R273): every command performed, FAULTED = 0, BUSY = 0. DESIGN CHOICE (log entry 24): "every command of
the sequence has been performed" is read off the state, as an empty port and an empty schedule. -/
abbrev endsWell (s : State) : Prop := s.port = [] ∧ s.schedule = [] ∧ s.faulted = false ∧ s.busy = false

/-- The values a slot's registers can take (R23, R35): all 0, or valid with even dimensions in 2..16382. -/
abbrev FbSlot.legal (r : FbSlot) : Prop :=
  (r.valid = false ∧ r.dw = 0 ∧ r.dh = 0) ∨
    (r.valid = true ∧ r.dw.toNat % 2 = 0 ∧ r.dw.toNat ≠ 0 ∧ r.dh.toNat % 2 = 0 ∧ r.dh.toNat ≠ 0)

/-- The invariant of the machine. -/
structure StateInv (s : State) : Prop where
  /-- the slot registers take only the values of R35 -/
  slotsLegal : ∀ f, (s.slot f).legal
  /-- a macroblock context names a macroblock of a configured slot (R114, R112) -/
  contextInGrid : s.mbValid = true →
    (s.slot s.mbFb).valid = true ∧ s.mbX.toNat < (s.slot s.mbFb).mbW ∧ s.mbY.toNat < (s.slot s.mbFb).mbH
  /-- the fault registers are 0 until a fault, and hold a code 1..9 after it (R27, R232, R35) -/
  faultRegisters : if s.faulted then 1 ≤ s.faultCode.toNat ∧ s.faultCode.toNat ≤ 9
    else s.faultCode = 0 ∧ s.faultCmd = 0
  /-- CFG_ERR is 0, 1 or 2 (R28, R35) -/
  cfgErrLegal : s.cfgErr.toNat ≤ 2
  /-- BUSY is 0 between steps (R29) -/
  idle : s.busy = false
  /-- the sample store has its canonical form -/
  storeWf : s.store.wf
  /-- every written cell is an addressable cell (R51) -/
  storeInRange : ∀ k v, (k, v) ∈ s.store → ∃ a, k = cellKey a ∧ s.addressable a = true

/-- FB_VALID, FB_DW, FB_DH, MB_VALID, MB_FB, MB_X, MB_Y are the same. -/
abbrev sameContext (s t : State) : Prop :=
  t.fb = s.fb ∧ t.mbValid = s.mbValid ∧ t.mbFb = s.mbFb ∧ t.mbX = s.mbX ∧ t.mbY = s.mbY

/-- FAULTED, FAULT_CODE, FAULT_CMD are the same. -/
abbrev sameFault (s t : State) : Prop :=
  t.faulted = s.faulted ∧ t.faultCode = s.faultCode ∧ t.faultCmd = s.faultCmd

/-- The port, and the model's own schedule and reply, are the same. -/
abbrev sameOutside (s t : State) : Prop :=
  t.port = s.port ∧ t.schedule = s.schedule ∧ t.reply = s.reply

/-- Every cell of the sample store that `keep` selects is the same. -/
def sameCells (keep : SampleAddr → Prop) (s t : State) : Prop := ∀ a, keep a → t.cell a = s.cell a

/-- The block of the macroblock that a prediction command predicts, if it is one (R116). -/
def predictedBlock (i : Instr) (s : State) : Option Block :=
  match i with
  | .cfgRaster _ _ _ => none
  | .beginMb _ _ _ => none
  | .intraMbDc p => some (geom s p false 0)
  | .intraMbV p => some (geom s p false 0)
  | .intraMbH p => some (geom s p false 0)
  | .intraMbTm p => some (geom s p false 0)
  | .intraBDc blk => some (geom s .y true blk)
  | .intraBTm blk => some (geom s .y true blk)
  | .intraBVe blk => some (geom s .y true blk)
  | .intraBHe blk => some (geom s .y true blk)
  | .intraBLd blk => some (geom s .y true blk)
  | .intraBRd blk => some (geom s .y true blk)
  | .intraBVr blk => some (geom s .y true blk)
  | .intraBVl blk => some (geom s .y true blk)
  | .intraBHd blk => some (geom s .y true blk)
  | .intraBHu blk => some (geom s .y true blk)
  | .inter _ p sub blk _ _ => some (geom s p sub blk)

/-- Everything but the sample store and the count of draws is the same: no register changed (R20, R22). -/
abbrev sameRegisters (s t : State) : Prop :=
  sameContext s t ∧ sameFault s t ∧ t.cfgErr = s.cfgErr ∧ t.busy = s.busy ∧ sameOutside s t

/-- The command answers a next state in which the block holds the predicted samples, and nothing else changed: no
register, no cell outside the block (R150, R170, R200). The model's own count of draws may have grown. -/
def predicts (i : Instr) (s : State) (b : Block) (pred : Nat → Nat → Sample) : Prop :=
  ∃ t, exec i s = .next t ∧
    (∀ c r, c < b.size → r < b.size → t.cell (b.addr c r) = some (pred c r)) ∧
    sameRegisters s t ∧
    sameCells (fun a => b.contains a = false) s t

/-- The command enters a LogicFault of the given code and has no other effect (R232, R235, R236): FAULTED, FAULT_CODE,
FAULT_CMD and BUSY are written, and every other field is the same. That FAULT_CMD is `encode` of the command is log entry
6. -/
def faultsWith (i : Instr) (s : State) (code : BitVec 4) : Prop :=
  ∃ t, exec i s = .next t ∧
    t.faulted = true ∧ t.faultCode = code ∧ t.faultCmd = encode i ∧ t.busy = false ∧
    sameContext s t ∧ t.cfgErr = s.cfgErr ∧ t.store = s.store ∧ sameOutside s t ∧ t.draws = s.draws

/-- No slot is configured and there is no macroblock context, as after reset (R262). -/
abbrev unconfigured (s : State) : Prop := (∀ f, (s.slot f).valid = false) ∧ s.mbValid = false

/-- The checks of INTER on the state pass (R200, R201). -/
abbrev interReady (ref : Slot) (s : State) : Prop :=
  s.mbValid = true ∧ (s.slot ref).valid = true ∧ ref ≠ s.mbFb

end Sys2Proof.Machine
end

