-- ==== Sys2Proof/Certificates/Slice0/Obligations.lean ====
section
/-! DEFINITION. The statements about the model, for the provers. Each docstring names the rule of the spec it
formalises. -/

open Sys2Proof Sys2Proof.Machine

/-! ### Reset and the status block -/

/-- R42: the reset value of every state element. -/
def Obligations.ResetHoldsEveryResetValue : Prop :=
  (∀ f, State.reset.slot f = ⟨false, 0, 0⟩) ∧
  State.reset.mbValid = false ∧ State.reset.mbFb = 0 ∧ State.reset.mbX = 0 ∧ State.reset.mbY = 0 ∧
  State.reset.faulted = false ∧ State.reset.faultCode = 0 ∧ State.reset.faultCmd = 0 ∧
  State.reset.cfgErr = 0 ∧ State.reset.busy = false ∧
  (∀ a, State.reset.cell a = none)

/-- R262: the core is idle after reset, every status register reads 0, and until a CFG_RASTER succeeds every other
command faults: BEGIN_MB with FB_NOT_CONFIGURED (code 7), the prediction commands with NO_MB_CONTEXT (code 6). "Until" is the last clause:
only a step that performs a CFG_RASTER with even dimensions other than 0 leaves the unconfigured states. That the idle
step of the reset state answers that same state is not R262 but the model's reading (log entry 2), and that FAULT_CMD is
`encode` of the command is log entry 6. -/
def Obligations.AfterResetOnlyCfgRasterCompletes : Prop :=
  unconfigured State.reset ∧ State.reset.busy = false ∧ State.reset.faulted = false ∧
  (∀ offset, statusBlock State.reset offset = 0) ∧
  step State.reset = .next State.reset ∧
  (∀ s, unconfigured s →
    (∀ f x y, faultsWith (.beginMb f x y) s 7) ∧
    (∀ i b, predictedBlock i s = some b → faultsWith i s 6) ∧
    (∀ f dw dh t, exec (.cfgRaster f dw dh) s = .next t → t.faulted = s.faulted)) ∧
  (∀ s t, unconfigured s → step s = .next t → ¬unconfigured t →
    ∃ w ws f dw dh, s.faulted = false ∧ s.port = w :: ws ∧
      (s.schedule = [] ∨ ∃ rest, s.schedule = .core :: rest) ∧ decode w = .ok (.cfgRaster f dw dh) ∧
      dw.toNat % 2 = 0 ∧ dh.toNat % 2 = 0 ∧ dw.toNat ≠ 0 ∧ dh.toNat ≠ 0 ∧ t.slot f = ⟨true, dw, dh⟩)

/-- R260: the reset input puts every state element at its reset value, and it is the only event that clears FAULTED.
That the commands which have arrived are discarded is R261. -/
def Obligations.ResetInputIsTheOnlyExitFromAFault : Prop :=
  (∀ (s : State) rest, ∃ t, step { s with schedule := .resetInput :: rest } = .next t ∧
    (∀ f, t.slot f = ⟨false, 0, 0⟩) ∧
    t.mbValid = false ∧ t.mbFb = 0 ∧ t.mbX = 0 ∧ t.mbY = 0 ∧
    t.faulted = false ∧ t.faultCode = 0 ∧ t.faultCmd = 0 ∧ t.cfgErr = 0 ∧ t.busy = false ∧
    (∀ a, t.cell a = none) ∧ t.port = []) ∧
  (∀ s t, s.faulted = true → step s = .next t → t.faulted = false →
    ∃ rest, s.schedule = .resetInput :: rest)

/-- R31 to R34: the layout of the status registers, each field at its place and every reserved bit 0; they read 0 after
reset, and a host write changes none of them. -/
def Obligations.StatusRegistersHaveTheirLayout : Prop :=
  (∀ s : State,
    (statusBlock s 0x00).toNat = s.faulted.toNat + 2 * s.busy.toNat + 4 * s.mbValid.toNat +
      16 * s.cfgErr.toNat + 256 * s.faultCode.toNat ∧
    (statusBlock s 0x04).toNat = s.mbY.toNat + 2 ^ 16 * s.mbX.toNat + 2 ^ 28 * s.mbFb.toNat ∧
    (statusBlock s 0x08).toNat + 2 ^ 32 * (statusBlock s 0x0C).toNat = s.faultCmd.toNat ∧
    (∀ f : Slot, (statusBlock s (0x10 + 4 * f.toNat)).toNat =
      (s.slot f).dh.toNat + 2 ^ 14 * (s.slot f).dw.toNat + 2 ^ 31 * (s.slot f).valid.toNat)) ∧
  (∀ offset, statusBlock State.reset offset = 0) ∧
  (∀ (s : State) offset v rest, ∃ t, step { s with schedule := .statusWrite offset v :: rest } = .next t ∧
    ∀ offset', statusBlock t offset' = statusBlock s offset')

/-- R30: a status read returns the register and has no side effect on the core; an unlisted or unaligned offset reads 0;
a host write is ignored. That what the read returns is kept in the field `reply` is the model's choice (log entry 8). -/
def Obligations.StatusReadsHaveNoSideEffect : Prop :=
  (∀ (s : State) offset rest, step { s with schedule := .statusRead offset :: rest } =
    .next { s with schedule := rest, reply := some (.status (statusBlock s offset)) }) ∧
  (∀ (s : State) offset v rest, step { s with schedule := .statusWrite offset v :: rest } =
    .next { s with schedule := rest }) ∧
  (∀ s offset, (offset % 4 ≠ 0 ∨ 0x1C < offset) → statusBlock s offset = 0)

/-! ### Encoding -/

/-- R99: the encoding examples, from the assembler's text to the word and from the word to the command. -/
def Obligations.EncodingExamplesDecode : Prop :=
  assembleText "cfg fb1, 176, 144" = some 0x11000000002C0090 ∧
  assembleText "mb fb0, 3, 2" = some 0x2000000000030002 ∧
  assembleText "ipred.tm u" = some 0x3040000000000003 ∧
  assembleText "bpred.hu 7" = some 0x4007000000000009 ∧
  assembleText "inter v, sub 3, fb1, -20, 4" = some 0x51930000FFEC0004 ∧
  decode 0x11000000002C0090 = .ok (.cfgRaster 1 176 144) ∧
  decode 0x2000000000030002 = .ok (.beginMb 0 3 2) ∧
  decode 0x3040000000000003 = .ok (.intraMbTm .u) ∧
  decode 0x4007000000000009 = .ok (.intraBHu 7) ∧
  decode 0x51930000FFEC0004 = .ok (.inter 1 .v true 3 (BitVec.ofInt 16 (-20)) 4)

/-- R95: the decode steps in their order, the bits of the word taken by division and remainder. -/
def Obligations.DecoderFollowsItsSteps : Prop :=
  ∀ w : CommandWord,
    let op := w.toNat / 2 ^ 60
    let plane := w.toNat / 2 ^ 54 % 4
    let sub := w.toNat / 2 ^ 52 % 2
    let blk := w.toNat / 2 ^ 48 % 16
    let mask : CommandWord :=
      if op = 1 then 0x0CFFFFFFF0000000 else if op = 2 then 0x0CFFFFFFFC00FC00
      else if op = 3 then 0x0F3FFFFFFFFFFFFC else if op = 4 then 0x0FF0FFFFFFFFFFF0
      else 0x0C20FFFF00000000
    let badBlk := (sub = 0 ∧ blk ≠ 0) ∨ (sub = 1 ∧ plane ≠ 0 ∧ 3 < blk)
    (op = 0 ∨ 6 ≤ op → decode w = .error .illegalOpcode) ∧
    (1 ≤ op → op ≤ 5 → w &&& mask ≠ 0 → decode w = .error .reservedBits) ∧
    (1 ≤ op → op ≤ 5 → w &&& mask = 0 →
      (op = 1 → decode w = .ok (.cfgRaster (BitVec.ofNat 2 (w.toNat / 2 ^ 56)) (BitVec.ofNat 14 (w.toNat / 2 ^ 14))
        (BitVec.ofNat 14 w.toNat))) ∧
      (op = 2 → decode w = .ok (.beginMb (BitVec.ofNat 2 (w.toNat / 2 ^ 56)) (BitVec.ofNat 10 (w.toNat / 2 ^ 16))
        (BitVec.ofNat 10 w.toNat))) ∧
      (op = 3 →
        (plane = 3 → decode w = .error .badPlane) ∧
        (∀ p mk, (planeField p).toNat = plane →
          [Instr.intraMbDc, Instr.intraMbV, Instr.intraMbH, Instr.intraMbTm][w.toNat % 4]? = some mk →
          decode w = .ok (mk p))) ∧
      (op = 4 →
        (10 ≤ w.toNat % 16 → decode w = .error .badMode) ∧
        (∀ mk, [Instr.intraBDc, Instr.intraBTm, Instr.intraBVe, Instr.intraBHe, Instr.intraBLd, Instr.intraBRd,
            Instr.intraBVr, Instr.intraBVl, Instr.intraBHd, Instr.intraBHu][w.toNat % 16]? = some mk →
          decode w = .ok (mk (BitVec.ofNat 4 blk)))) ∧
      (op = 5 →
        (plane = 3 → decode w = .error .badPlane) ∧
        (plane ≠ 3 → badBlk → decode w = .error .badBlock) ∧
        (∀ p, (planeField p).toNat = plane → ¬badBlk →
          decode w = .ok (.inter (BitVec.ofNat 2 (w.toNat / 2 ^ 56)) p (sub == 1) (BitVec.ofNat 4 blk)
            (BitVec.ofNat 16 (w.toNat / 2 ^ 16)) (BitVec.ofNat 16 w.toNat)))))

/-- R85 to R93: the word of every well-formed command decodes to that command. -/
def Obligations.DecodeOfEncodeIsTheCommand : Prop :=
  ∀ i : Instr, i.wellFormed = true → decode (encode i) = .ok i

/-- R84, R96: a word that decodes to a command is that command's only word, and the command is well-formed. -/
def Obligations.EncodeOfDecodeIsTheWord : Prop :=
  ∀ (w : CommandWord) (i : Instr), decode w = .ok i → i.wellFormed = true ∧ encode i = w

/-- R98: `copy` is `inter` with the displacement in eighths, for DX and DY in −4096..4095, and then its phases are 0. R98
says that DX and DY must lie in that range, and R93 which BLK a block of the plane has (`mb`, or `sub BLK` with BLK in 0..15
for luma and 0..3 for chroma). That a line which breaks one of these gives no command at all is the model's choice (log
entry 22): R97 and R98 are silent on it, and R93 has the core, not the assembler, refuse such a BLK. -/
def Obligations.CopyIsAnIntegerDisplacement : Prop :=
  (∀ p b ref dx dy, assemble (.copy p b ref dx dy) = assemble (.inter p b ref (8 * dx) (8 * dy))) ∧
  (∀ p ref dx dy, (assemble (.copy p .mb ref dx dy)).isSome = true ↔
    (-4096 ≤ dx ∧ dx ≤ 4095) ∧ (-4096 ≤ dy ∧ dy ≤ 4095)) ∧
  (∀ p blk ref dx dy, (assemble (.copy p (.sub blk) ref dx dy)).isSome = true ↔
    (-4096 ≤ dx ∧ dx ≤ 4095) ∧ (-4096 ≤ dy ∧ dy ≤ 4095) ∧ blk ≤ (if p = .y then 15 else 3)) ∧
  (∀ p b ref dx dy i, assemble (.copy p b ref dx dy) = some i →
    ∃ sub blk mvx mvy, i = .inter ref p sub blk mvx mvy ∧
      mvPhase mvx = 0 ∧ mvPhase mvy = 0 ∧ mvInt mvx = dx ∧ mvInt mvy = dy)

/-! ### The step -/

/-- R3, R59, R267: a word that the host writes to the command port arrives behind those that came before, and nothing else
changes. R3, R95, R274: on the core's turn, with FAULTED = 0 and a word at the front of the port that decodes to a command,
the step is `exec` of that command, BUSY being 1 during it and 0 after it, and the word taken off the port. The turn is
the core's when the schedule says so or is empty (log entry 1). -/
def Obligations.StepRunsTheDecodedCommand : Prop :=
  (∀ (s : State) (w : CommandWord) (rest : List Event),
    step { s with schedule := .issue w :: rest } = .next { s with schedule := rest, port := s.port ++ [w] }) ∧
  (∀ (s : State) (w : CommandWord) (ws : List CommandWord) (rest : List Event) (i : Instr),
    s.faulted = false → s.port = w :: ws → decode w = .ok i →
    (s.schedule = .core :: rest ∨ (s.schedule = [] ∧ rest = [])) →
    step s = finish (exec i { s with port := ws, schedule := rest, busy := true }))

/-- The step after `withFetchWord` runs the command that the decoder reads from the table's word (log entry 12). -/
def Obligations.PlacedWordIsTheNextCommand : Prop :=
  ∀ (s : State) (nbits w : Nat) (i : Instr),
    s.faulted = false → decodeTableWord nbits w = some i →
    step (s.withFetchWord nbits w) = finish (exec i { s with busy := true })

/-- R236, R235: a word that does not decode enters its LogicFault, with the code R232 gives it: FAULTED, FAULT_CODE,
FAULT_CMD and BUSY are written, `fault_o` follows, and nothing else of the core changes. The turn is the core's when the schedule says so or is empty (log
entry 1). -/
def Obligations.UndecodableWordEntersItsFault : Prop :=
  ∀ (s : State) (w : CommandWord) (ws : List CommandWord) (rest : List Event) (k : LogicFault),
    s.faulted = false → s.port = w :: ws → decode w = .error k →
    (s.schedule = .core :: rest ∨ (s.schedule = [] ∧ rest = [])) →
    ∃ t, step s = .next t ∧
      t.faulted = true ∧
      ((k = .illegalOpcode ∧ t.faultCode = 1) ∨ (k = .reservedBits ∧ t.faultCode = 2) ∨
        (k = .badPlane ∧ t.faultCode = 3) ∨ (k = .badMode ∧ t.faultCode = 4) ∨ (k = .badBlock ∧ t.faultCode = 5)) ∧
      t.faultCmd = w ∧ t.busy = false ∧ faultO t = true ∧
      t.port = ws ∧ t.schedule = rest ∧ sameContext s t ∧ t.cfgErr = s.cfgErr ∧ t.store = s.store ∧
      t.reply = s.reply ∧ t.draws = s.draws

/-- R235: a command that raises a LogicFault has no effect other than fault entry. That FAULT_CMD is `encode` of the
command is log entry 6. -/
def Obligations.LogicFaultsArePrecise : Prop :=
  ∀ (i : Instr) (s t : State), s.faulted = false → exec i s = .next t → t.faulted = true →
    (∀ a, t.cell a = s.cell a) ∧ sameContext s t ∧ t.cfgErr = s.cfgErr ∧ sameOutside s t ∧ t.draws = s.draws ∧
    t.busy = false ∧ t.faultCmd = encode i ∧ 6 ≤ t.faultCode.toNat ∧ t.faultCode.toNat ≤ 9

/-- R237, R239: after fault entry the core is stuck until reset. No command is performed, FAULT_CODE and FAULT_CMD keep
describing the first fault, no sample changes but by the host, the status block stays readable and the host keeps its
steps, and a faulted state is no final state of a run. That the machine stops with `coreStuck` when nothing is scheduled,
that a scheduled turn of the core passes, and that arrived commands stay in the port is the model's choice (log entry 3);
so is how `endsWell` reads the end of a run (log entry 24) and that a host read's value is kept in `reply` (log entry 8). -/
def Obligations.FaultedCoreIsStuckUntilReset : Prop :=
  ∀ s : State, s.faulted = true →
    (s.schedule = [] → step s = .fault .coreStuck) ∧
    (∀ t, step s = .next t → (∀ rest, s.schedule ≠ .resetInput :: rest) →
      sameFault s t ∧ sameContext s t ∧ t.cfgErr = s.cfgErr ∧ t.busy = s.busy ∧
      (∃ arrived, t.port = s.port ++ arrived) ∧
      ((∀ a v rest, s.schedule ≠ .hostWrite a v :: rest) → ∀ a, t.cell a = s.cell a)) ∧
    (∀ offset rest, ∃ t, step { s with schedule := .statusRead offset :: rest } = .next t ∧
      t.reply = some (.status (statusBlock s offset))) ∧
    (∀ a v rest, s.busy = false → s.addressable a = true →
      (∃ t, step { s with schedule := .hostWrite a v :: rest } = .next t ∧ t.cell a = some v) ∧
      ∃ t u, step { s with schedule := .hostRead a :: rest } = .next t ∧ t.reply = some (.sample u) ∧
        ∀ u', s.cell a = some u' → u = u') ∧
    ¬endsWell s

/-- R248: with no command to perform, the core is idle. That the idle step leaves the state as it is is log entry 2. -/
def Obligations.IdleStepChangesNothing : Prop :=
  ∀ s : State, s.faulted = false → s.port = [] → s.schedule = [] → step s = .next s

/-- Every command of the table answers a next state, in every state: no ordinary data stops a run. -/
def Obligations.EveryCommandAnswersANextState : Prop :=
  ∀ (i : Instr) (s : State), ∃ t, exec i s = .next t ∧
    (t.faulted = true ∨ t.faulted = s.faulted) ∧ t.port = s.port ∧ t.schedule = s.schedule ∧ t.reply = s.reply

/-! ### CFG_RASTER and BEGIN_MB -/

/-- R112: CFG_RASTER with even dimensions other than 0 configures the slot: display dimensions verbatim, every cell of
the slot unwritten, MB_VALID cleared if the slot is the current raster, CFG_ERR 0. The other slots, their cells and all
else are unchanged. -/
def Obligations.CfgRasterConfiguresTheSlot : Prop :=
  ∀ (f : Slot) (dw dh : BitVec 14) (s : State),
    dw.toNat % 2 = 0 → dh.toNat % 2 = 0 → dw.toNat ≠ 0 → dh.toNat ≠ 0 →
    ∃ t, exec (.cfgRaster f dw dh) s = .next t ∧
      t.slot f = ⟨true, dw, dh⟩ ∧ t.cfgErr = 0 ∧
      (∀ a, a.fb = f → t.cell a = none) ∧
      t.mbValid = (if s.mbFb = f then false else s.mbValid) ∧
      (∀ g, g ≠ f → t.slot g = s.slot g) ∧
      sameCells (fun a => a.fb ≠ f) s t ∧
      t.mbFb = s.mbFb ∧ t.mbX = s.mbX ∧ t.mbY = s.mbY ∧ sameFault s t ∧ t.busy = s.busy ∧ sameOutside s t ∧
      t.draws = s.draws

/-- R112, R231: CFG_RASTER with an odd dimension, or with even ones of which one is 0, ends in UnsupportedInput: CFG_ERR
is 1 or 2 (parity first), the slot is left unconfigured and unwritten, and the core is not faulted. -/
def Obligations.CfgRasterReportsUnsupportedInput : Prop :=
  ∀ (f : Slot) (dw dh : BitVec 14) (s : State),
    (dw.toNat % 2 = 1 ∨ dh.toNat % 2 = 1 ∨ dw.toNat = 0 ∨ dh.toNat = 0) →
    ∃ t, exec (.cfgRaster f dw dh) s = .next t ∧
      t.cfgErr = (if dw.toNat % 2 = 1 ∨ dh.toNat % 2 = 1 then 1 else 2) ∧
      t.slot f = ⟨false, 0, 0⟩ ∧
      (∀ a, a.fb = f → t.cell a = none) ∧
      t.mbValid = (if s.mbFb = f then false else s.mbValid) ∧
      (∀ g, g ≠ f → t.slot g = s.slot g) ∧
      sameCells (fun a => a.fb ≠ f) s t ∧
      t.mbFb = s.mbFb ∧ t.mbX = s.mbX ∧ t.mbY = s.mbY ∧ sameFault s t ∧ t.busy = s.busy ∧ sameOutside s t ∧
      t.draws = s.draws

/-- R24, R113: the storage is the display rounded up to whole macroblocks, and a chroma plane is half a luma plane. -/
def Obligations.StorageRoundsUpToMacroblocks : Prop :=
  ∀ r : FbSlot,
    r.planeW .y = 16 * r.mbW ∧ r.planeH .y = 16 * r.mbH ∧
    r.dw.toNat ≤ r.planeW .y ∧ r.planeW .y < r.dw.toNat + 16 ∧
    r.dh.toNat ≤ r.planeH .y ∧ r.planeH .y < r.dh.toNat + 16 ∧
    (∀ p, p ≠ .y → 2 * r.planeW p = r.planeW .y ∧ 2 * r.planeH p = r.planeH .y) ∧
    r.mbW ≤ 1024 ∧ r.mbH ≤ 1024

/-- R114: BEGIN_MB of a macroblock in the grid of a configured slot sets the context and changes nothing else; it reads
and writes no sample. -/
def Obligations.BeginMbSetsTheContext : Prop :=
  ∀ (f : Slot) (x y : BitVec 10) (s : State),
    (s.slot f).valid = true → x.toNat < (s.slot f).mbW → y.toNat < (s.slot f).mbH →
    ∃ t, exec (.beginMb f x y) s = .next t ∧
      t.mbValid = true ∧ t.mbFb = f ∧ t.mbX = x ∧ t.mbY = y ∧
      t.fb = s.fb ∧ t.store = s.store ∧ sameFault s t ∧ t.cfgErr = s.cfgErr ∧ t.busy = s.busy ∧ sameOutside s t ∧
      t.draws = s.draws

/-- R114, R232, R234: the checks of BEGIN_MB, FB_NOT_CONFIGURED (code 7) before MB_OUT_OF_RANGE (code 9). That FAULT_CMD is
`encode` of the command is log entry 6. -/
def Obligations.BeginMbChecksItsOperands : Prop :=
  ∀ (f : Slot) (x y : BitVec 10) (s : State),
    ((s.slot f).valid = false → faultsWith (.beginMb f x y) s 7) ∧
    ((s.slot f).valid = true → ((s.slot f).mbW ≤ x.toNat ∨ (s.slot f).mbH ≤ y.toNat) →
      faultsWith (.beginMb f x y) s 9)

/-! ### The neighbour mux -/

/-- R132, R133, R142: the above row, the left column and the corner of every block a command can name, in positions of
the plane. The number of the draw in each read is the model's choice (log entry 4). -/
def Obligations.NeighboursAtTheEdgesOfTheFrame : Prop :=
  ∀ (s : State) (p : Plane) (sub : Bool) (blk : BitVec 4),
    let b := geom s p sub blk
    (∀ i, muxAboveRow s b i = if b.y0 = 0 then 127 else s.sread i ⟨s.mbFb, p, b.x0 + i, b.y0 - 1⟩) ∧
    (∀ i, muxLeftColumn s b i =
      if b.x0 = 0 then 129 else s.sread (b.size + i) ⟨s.mbFb, p, b.x0 - 1, b.y0 + i⟩) ∧
    muxAboveLeft s b =
      (if b.y0 = 0 then 127 else if b.x0 = 0 then 129
        else s.sread (2 * b.size) ⟨s.mbFb, p, b.x0 - 1, b.y0 - 1⟩)

/-- R134: the above-right region without the fix-up, in positions of the plane. The number of the draw in each read is the
model's choice (log entry 4). -/
def Obligations.AboveRightRegionWithoutFixUp : Prop :=
  ∀ (s : State) (p : Plane) (sub : Bool) (blk : BitVec 4),
    let b := geom s p sub blk
    let n := mux s b false
    (0 < b.y0 ∧ b.x0 + b.size < (s.slot s.mbFb).planeW p →
      n.useRow = true ∧
      ∀ i, n.ar i = s.sread (2 * b.size + 1 + i) ⟨s.mbFb, p, b.x0 + b.size + i, b.y0 - 1⟩) ∧
    (0 < b.y0 ∧ (s.slot s.mbFb).planeW p ≤ b.x0 + b.size →
      n.useRow = false ∧ n.br = s.sread (2 * b.size + 1) ⟨s.mbFb, p, b.x0 + b.size - 1, b.y0 - 1⟩) ∧
    (b.y0 = 0 → n.useRow = false ∧ n.br = 127)

/-- R135 (the source's invariant 5): sub-blocks (3, 1), (3, 2) and (3, 3) take the above-right region of sub-block
(3, 0), which lies in the macroblock row above; no other sub-block is fixed up. The number of the draw in each read is the
model's choice (log entry 4). -/
def Obligations.RightEdgeFixUpSharesTheRegion : Prop :=
  ∀ (s : State) (blk : BitVec 4),
    let n := mux s (geom s .y true blk) (fixApplies blk)
    let n0 := mux s (geom s .y true 3) (fixApplies 3)
    (fixApplies blk = true ↔ blk = 7 ∨ blk = 11 ∨ blk = 15) ∧
    (fixApplies blk = true →
      n.useRow = n0.useRow ∧ n.ar = n0.ar ∧ n.br = n0.br ∧
      (s.mbY ≠ 0 → s.mbX.toNat + 1 < (s.slot s.mbFb).mbW →
        n.useRow = true ∧
        ∀ i, n.ar i = s.sread (9 + i) ⟨s.mbFb, .y, 16 * s.mbX.toNat + 16 + i, 16 * s.mbY.toNat - 1⟩) ∧
      (s.mbY ≠ 0 → s.mbX.toNat + 1 = (s.slot s.mbFb).mbW →
        n.useRow = false ∧ n.br = s.sread 9 ⟨s.mbFb, .y, 16 * s.mbX.toNat + 15, 16 * s.mbY.toNat - 1⟩) ∧
      (s.mbY = 0 → n.useRow = false ∧ n.br = 127))

/-- R136 to R138: the projections that the modes read. -/
def Obligations.ProjectionsOfTheNeighbours : Prop :=
  ∀ n : Neighbours,
    n.above (-1) = n.aboveLeft ∧ n.left (-1) = n.aboveLeft ∧
    (∀ c : Nat, c < n.size → n.above c = n.aboveRow c ∧ n.left c = n.leftColumn c) ∧
    (∀ c : Nat, n.size ≤ c → c < 2 * n.size → n.above c = if n.useRow then n.ar (c - n.size) else n.br) ∧
    (n.size = 4 → (List.range 9).map n.east =
      [n.leftColumn 3, n.leftColumn 2, n.leftColumn 1, n.leftColumn 0, n.aboveLeft,
        n.aboveRow 0, n.aboveRow 1, n.aboveRow 2, n.aboveRow 3])

/-- R65: what an intra command reads lies outside the block it writes, so the neighbours read after the writes, with the
same draws (log entry 4), would be those read before them. -/
def Obligations.NeighboursLieOutsideTheBlock : Prop :=
  ∀ (s : State) (p : Plane) (sub : Bool) (blk : BitVec 4) (fix : Bool) (pred : Nat → Nat → Sample) (n : Nat),
    (fix = true → p = .y ∧ sub = true ∧ fixApplies blk = true) →
    let b := geom s p sub blk
    mux { predictBlock b pred n s with draws := s.draws } b fix = mux s b fix

/-- R11: the averages are exact and never leave 0..255. -/
def Obligations.AveragesAreExact : Prop :=
  ∀ x y z : Sample,
    (avg2 x y).toNat = (x.toNat + y.toNat + 1) / 2 ∧
    (avg3 x y z).toNat = (x.toNat + 2 * y.toNat + z.toNat + 2) / 4

/-! ### INTRA_MB -/

/-- R151: INTRA_MB.DC, with the four branches on presence; the result needs no narrowing. The frame of `predicts` says
that nothing else changes. -/
def Obligations.IntraMbDcAveragesThePresentNeighbours : Prop :=
  ∀ (p : Plane) (s : State), s.mbValid = true →
    let b := geom s p false 0
    let sumA := ∑ i ∈ Finset.range b.size, (muxAboveRow s b i).toNat
    let sumL := ∑ i ∈ Finset.range b.size, (muxLeftColumn s b i).toNat
    ∃ v : Sample, predicts (.intraMbDc p) s b (fun _ _ => v) ∧
      (0 < b.y0 → 0 < b.x0 → v.toNat = (sumA + sumL + b.size) / (2 * b.size)) ∧
      (0 < b.y0 → b.x0 = 0 → v.toNat = (sumA + b.size / 2) / b.size) ∧
      (b.y0 = 0 → 0 < b.x0 → v.toNat = (sumL + b.size / 2) / b.size) ∧
      (b.y0 = 0 → b.x0 = 0 → v.toNat = 128)

/-- R152, R153: INTRA_MB.V copies the above row into every row, INTRA_MB.H the left column into every column; at the top
edge V gives 127, at the left edge H gives 129. -/
def Obligations.IntraMbVAndHCopyTheirEdge : Prop :=
  ∀ (p : Plane) (s : State), s.mbValid = true →
    let b := geom s p false 0
    predicts (.intraMbV p) s b (fun c _ => muxAboveRow s b c) ∧
    predicts (.intraMbH p) s b (fun _ r => muxLeftColumn s b r) ∧
    (s.mbY = 0 → predicts (.intraMbV p) s b (fun _ _ => 127)) ∧
    (s.mbX = 0 → predicts (.intraMbH p) s b (fun _ _ => 129))

/-- R154: INTRA_MB.TM, the clamp in exact integers, and its values at the edges of the frame: the left column on the top
edge, the above row on the left edge. -/
def Obligations.IntraMbTmClampsTheGradient : Prop :=
  ∀ (p : Plane) (s : State), s.mbValid = true →
    let b := geom s p false 0
    (∃ pred : Nat → Nat → Sample, predicts (.intraMbTm p) s b pred ∧
      ∀ c r, ((pred c r).toNat : Int) =
        max 0 (min 255 ((muxLeftColumn s b r).toNat + (muxAboveRow s b c).toNat - (muxAboveLeft s b).toNat))) ∧
    (s.mbY = 0 → predicts (.intraMbTm p) s b (fun _ r => muxLeftColumn s b r)) ∧
    (s.mbX = 0 → 0 < b.y0 → predicts (.intraMbTm p) s b (fun c _ => muxAboveRow s b c))

/-! ### INTRA_B -/

/-- R171 (and the source's invariant 3): INTRA_B.DC always uses the both-present formula, synthetic borders included;
at the top-left of the frame it gives 128. -/
def Obligations.IntraBDcUsesTheSyntheticBorders : Prop :=
  ∀ (blk : BitVec 4) (s : State), s.mbValid = true →
    let b := geom s .y true blk
    let n := mux s b (fixApplies blk)
    ∃ v : Sample, predicts (.intraBDc blk) s b (fun _ _ => v) ∧
      v.toNat = ((n.aboveRow 0).toNat + (n.aboveRow 1).toNat + (n.aboveRow 2).toNat + (n.aboveRow 3).toNat +
        (n.leftColumn 0).toNat + (n.leftColumn 1).toNat + (n.leftColumn 2).toNat + (n.leftColumn 3).toNat + 4) / 8 ∧
      (b.x0 = 0 → b.y0 = 0 → v = 128)

/-- R172 (and the source's invariant 4): INTRA_B.TM is the clamp of R154 at S = 4; a flat neighbourhood gives itself. -/
def Obligations.IntraBTmClampsTheGradient : Prop :=
  ∀ (blk : BitVec 4) (s : State), s.mbValid = true →
    let b := geom s .y true blk
    let n := mux s b (fixApplies blk)
    ∃ pred : Nat → Nat → Sample, predicts (.intraBTm blk) s b pred ∧
      (∀ c r, ((pred c r).toNat : Int) =
        max 0 (min 255 ((n.leftColumn r).toNat + (n.aboveRow c).toNat - n.aboveLeft.toNat))) ∧
      (∀ k c r, n.leftColumn r = k → n.aboveRow c = k → n.aboveLeft = k → pred c r = k)

/-- R173: INTRA_B.VE, column by column. Column 0 reads the corner, column 3 the above-right region. -/
def Obligations.IntraBVeSmoothsTheAboveRow : Prop :=
  ∀ (blk : BitVec 4) (s : State), s.mbValid = true →
    let b := geom s .y true blk
    let n := mux s b (fixApplies blk)
    let col := [avg3 n.aboveLeft (n.above 0) (n.above 1), avg3 (n.above 0) (n.above 1) (n.above 2),
      avg3 (n.above 1) (n.above 2) (n.above 3), avg3 (n.above 2) (n.above 3) (n.above 4)]
    predicts (.intraBVe blk) s b (fun c _ => col.getD c 0)

/-- R174: INTRA_B.HE, row by row. The last row repeats L3. -/
def Obligations.IntraBHeSmoothsTheLeftColumn : Prop :=
  ∀ (blk : BitVec 4) (s : State), s.mbValid = true →
    let b := geom s .y true blk
    let n := mux s b (fixApplies blk)
    let row := [avg3 n.aboveLeft (n.left 0) (n.left 1), avg3 (n.left 0) (n.left 1) (n.left 2),
      avg3 (n.left 1) (n.left 2) (n.left 3), avg3 (n.left 2) (n.left 3) (n.left 3)]
    predicts (.intraBHe blk) s b (fun _ r => row.getD r 0)

/-- R175: INTRA_B.LD, its table. -/
def Obligations.IntraBLdTable : Prop :=
  ∀ (blk : BitVec 4) (s : State), s.mbValid = true →
    let b := geom s .y true blk
    let a := (mux s b (fixApplies blk)).above
    predicts (.intraBLd blk) s b (gridCell
      [[avg3 (a 0) (a 1) (a 2), avg3 (a 1) (a 2) (a 3), avg3 (a 2) (a 3) (a 4), avg3 (a 3) (a 4) (a 5)],
       [avg3 (a 1) (a 2) (a 3), avg3 (a 2) (a 3) (a 4), avg3 (a 3) (a 4) (a 5), avg3 (a 4) (a 5) (a 6)],
       [avg3 (a 2) (a 3) (a 4), avg3 (a 3) (a 4) (a 5), avg3 (a 4) (a 5) (a 6), avg3 (a 5) (a 6) (a 7)],
       [avg3 (a 3) (a 4) (a 5), avg3 (a 4) (a 5) (a 6), avg3 (a 5) (a 6) (a 7), avg3 (a 6) (a 7) (a 7)]])

/-- R176: INTRA_B.RD, its table. -/
def Obligations.IntraBRdTable : Prop :=
  ∀ (blk : BitVec 4) (s : State), s.mbValid = true →
    let b := geom s .y true blk
    let n := mux s b (fixApplies blk)
    let a := n.above
    let l := n.left
    let p := n.aboveLeft
    predicts (.intraBRd blk) s b (gridCell
      [[avg3 (l 0) p (a 0), avg3 p (a 0) (a 1), avg3 (a 0) (a 1) (a 2), avg3 (a 1) (a 2) (a 3)],
       [avg3 (l 1) (l 0) p, avg3 (l 0) p (a 0), avg3 p (a 0) (a 1), avg3 (a 0) (a 1) (a 2)],
       [avg3 (l 2) (l 1) (l 0), avg3 (l 1) (l 0) p, avg3 (l 0) p (a 0), avg3 p (a 0) (a 1)],
       [avg3 (l 3) (l 2) (l 1), avg3 (l 2) (l 1) (l 0), avg3 (l 1) (l 0) p, avg3 (l 0) p (a 0)]])

/-- R177: INTRA_B.VR, in its east terms. -/
def Obligations.IntraBVrInEastTerms : Prop :=
  ∀ (blk : BitVec 4) (s : State), s.mbValid = true →
    let b := geom s .y true blk
    let e := (mux s b (fixApplies blk)).east
    predicts (.intraBVr blk) s b (fun c r =>
      if r = 0 then avg2 (e (4 + c)) (e (5 + c))
      else if r = 1 then avg3 (e (3 + c)) (e (4 + c)) (e (5 + c))
      else if r = 2 then (if c = 0 then avg3 (e 2) (e 3) (e 4) else avg2 (e (3 + c)) (e (4 + c)))
      else (if c = 0 then avg3 (e 1) (e 2) (e 3) else avg3 (e (2 + c)) (e (3 + c)) (e (4 + c))))

/-- R178: INTRA_B.VL: rows 0 and 2 average two, rows 1 and 3 three, of the samples from A_{c + r/2} on, but for the two
out-of-pattern cells (3, 2) and (3, 3). -/
def Obligations.IntraBVlWithItsTwoExceptions : Prop :=
  ∀ (blk : BitVec 4) (s : State), s.mbValid = true →
    let b := geom s .y true blk
    let a := (mux s b (fixApplies blk)).above
    predicts (.intraBVl blk) s b (fun c r =>
      if c = 3 ∧ r = 2 then avg3 (a 4) (a 5) (a 6)
      else if c = 3 ∧ r = 3 then avg3 (a 5) (a 6) (a 7)
      else if r % 2 = 0 then avg2 (a (c + r / 2 : Nat)) (a (c + r / 2 + 1 : Nat))
      else avg3 (a (c + r / 2 : Nat)) (a (c + r / 2 + 1 : Nat)) (a (c + r / 2 + 2 : Nat)))

/-- R179: INTRA_B.HD, in its east terms. -/
def Obligations.IntraBHdInEastTerms : Prop :=
  ∀ (blk : BitVec 4) (s : State), s.mbValid = true →
    let b := geom s .y true blk
    let e := (mux s b (fixApplies blk)).east
    ∃ pred : Nat → Nat → Sample, predicts (.intraBHd blk) s b pred ∧
      (∀ r < 4, pred 0 r = avg2 (e (3 - r)) (e (4 - r))) ∧
      (∀ r < 4, pred 1 r = avg3 (e (3 - r)) (e (4 - r)) (e (5 - r))) ∧
      (∀ r < 4, 1 ≤ r → pred 2 r = pred 0 (r - 1) ∧ pred 3 r = pred 1 (r - 1)) ∧
      pred 2 0 = avg3 (e 4) (e 5) (e 6) ∧ pred 3 0 = avg3 (e 5) (e 6) (e 7)

/-- R180: INTRA_B.HU: along c + 2·r, two-sample and three-sample averages down the left column, then the last sample
repeated. -/
def Obligations.IntraBHuRepeatsTheLastSample : Prop :=
  ∀ (blk : BitVec 4) (s : State), s.mbValid = true →
    let b := geom s .y true blk
    let l := (mux s b (fixApplies blk)).left
    predicts (.intraBHu blk) s b (fun c r =>
      [avg2 (l 0) (l 1), avg3 (l 0) (l 1) (l 2), avg2 (l 1) (l 2), avg3 (l 1) (l 2) (l 3), avg2 (l 2) (l 3),
        avg3 (l 2) (l 3) (l 3)].getD (c + 2 * r) (l 3))

/-- R150, R170, R232: every intra command without a macroblock context raises NO_MB_CONTEXT (code 6). That FAULT_CMD is
`encode` of the command is log entry 6. -/
def Obligations.IntraNeedsAContext : Prop :=
  ∀ (s : State) (p : Plane) (blk : BitVec 4), s.mbValid = false →
    ∀ i ∈ [Instr.intraMbDc p, .intraMbV p, .intraMbH p, .intraMbTm p, .intraBDc blk, .intraBTm blk, .intraBVe blk,
        .intraBHe blk, .intraBLd blk, .intraBRd blk, .intraBVr blk, .intraBVl blk, .intraBHd blk, .intraBHu blk],
      faultsWith i s 6

/-! ### INTER -/

/-- R201, R232: the checks of INTER on the state, in order: NO_MB_CONTEXT (code 6), FB_NOT_CONFIGURED (code 7) and
REF_IS_CURRENT (code 8). A command that passes them completes, and changes no register. That FAULT_CMD is `encode` of the
command is log entry 6. -/
def Obligations.InterChecksInOrder : Prop :=
  ∀ (ref : Slot) (p : Plane) (sub : Bool) (blk : BitVec 4) (mvx mvy : BitVec 16) (s : State),
    let i := Instr.inter ref p sub blk mvx mvy
    (s.mbValid = false → faultsWith i s 6) ∧
    (s.mbValid = true → (s.slot ref).valid = false → faultsWith i s 7) ∧
    (s.mbValid = true → (s.slot ref).valid = true → ref = s.mbFb → faultsWith i s 8) ∧
    (interReady ref s → ∃ t, exec i s = .next t ∧ sameRegisters s t)

/-- R203: a motion-vector component is 8 times its integer part plus its phase, the phase in 0..7. -/
def Obligations.MotionVectorSplitsIntoEighths : Prop :=
  ∀ mv : BitVec 16, 8 * mvInt mv + (mvPhase mv : Int) = mv.toInt ∧ mvPhase mv < 8

/-- R36, R208: `Fk` with the eight rows of the filter ROM, in exact integers. -/
def Obligations.FilterArithmeticIsExact : Prop :=
  ∀ s0 s1 s2 s3 s4 s5 : Sample,
    let f (t0 t1 t2 t3 t4 t5 : Int) : Int := max 0 (min 255 ((s0.toNat * t0 + s1.toNat * t1 + s2.toNat * t2 +
      s3.toNat * t3 + s4.toNat * t4 + s5.toNat * t5 + 64) / 128))
    let k (ph : Nat) : Int := ((filterSix ph s0 s1 s2 s3 s4 s5).toNat : Int)
    k 0 = f 0 0 128 0 0 0 ∧ k 1 = f 0 (-6) 123 12 (-1) 0 ∧ k 2 = f 2 (-11) 108 36 (-8) 1 ∧
    k 3 = f 0 (-9) 93 50 (-6) 0 ∧ k 4 = f 3 (-16) 77 77 (-16) 3 ∧ k 5 = f 0 (-6) 50 93 (-9) 0 ∧
    k 6 = f 1 (-8) 36 108 (-11) 2 ∧ k 7 = f 0 (-1) 12 123 (-6) 0

/-- R209: phase 0 is the identity, so with my = 0 the result is the horizontal pass alone, and with mx = 0 the vertical
pass alone on the integer-aligned columns. Every read keeps its own draw (log entry 4). -/
def Obligations.PhaseZeroIsTheIdentity : Prop :=
  (∀ s0 s1 s2 s3 s4 s5 : Sample, filterSix 0 s0 s1 s2 s3 s4 s5 = s2) ∧
  (∀ (s : State) (a : InterArgs) (c r : Nat), mvPhase a.mvy = 0 → filterCell s a c r = interT s a c (r + 2)) ∧
  (∀ (s : State) (a : InterArgs) (c r : Nat), mvPhase a.mvx = 0 →
    filterCell s a c r = filterSix (mvPhase a.mvy) (tapRead s a c r 2) (tapRead s a c (r + 1) 2)
      (tapRead s a c (r + 2) 2) (tapRead s a c (r + 3) 2) (tapRead s a c (r + 4) 2) (tapRead s a c (r + 5) 2))

/-- R210: the range of the tap sum, of the rounded sum and of its shift; every row of the ROM sums to 128 (R36), so flat
samples give themselves. -/
def Obligations.FilterSumsStayInRange : Prop :=
  ∀ (ph : Nat) (s0 s1 s2 s3 s4 s5 : Sample), ph < 8 →
    -8160 ≤ tapSum ph s0 s1 s2 s3 s4 s5 ∧ tapSum ph s0 s1 s2 s3 s4 s5 ≤ 40800 ∧
    -64 ≤ sar (tapSum ph s0 s1 s2 s3 s4 s5 + 64) 7 ∧ sar (tapSum ph s0 s1 s2 s3 s4 s5 + 64) 7 ≤ 319 ∧
    filterSix ph s0 s0 s0 s0 s0 s0 = s0

/-- R204, R205: INTER with both phases 0 copies the clamped reference rectangle, byte for byte. The number of the draw in
each read is the model's choice (log entry 4). -/
def Obligations.InterCopiesTheReferenceRectangle : Prop :=
  ∀ (ref : Slot) (p : Plane) (sub : Bool) (blk : BitVec 4) (mvx mvy : BitVec 16) (s : State),
    interReady ref s → mvPhase mvx = 0 → mvPhase mvy = 0 →
    let b := geom s p sub blk
    let w : Int := (s.slot ref).planeW p
    let h : Int := (s.slot ref).planeH p
    predicts (.inter ref p sub blk mvx mvy) s b (fun c r =>
      s.sread (b.size * r + c) ⟨ref, p, (max 0 (min (w - 1) (b.x0 + mvInt mvx + c))).toNat,
        (max 0 (min (h - 1) (b.y0 + mvInt mvy + r))).toNat⟩)

/-- R205 to R208: INTER with a phase other than 0 filters horizontally, over the rows from two above the block to three
below it, and then vertically. Every reference read is clamped. The number of the draw in each read is the model's choice
(log entry 4). -/
def Obligations.InterFiltersHorizontallyThenVertically : Prop :=
  ∀ (ref : Slot) (p : Plane) (sub : Bool) (blk : BitVec 4) (mvx mvy : BitVec 16) (s : State),
    interReady ref s → (mvPhase mvx ≠ 0 ∨ mvPhase mvy ≠ 0) →
    let b := geom s p sub blk
    let w : Int := (s.slot ref).planeW p
    let h : Int := (s.slot ref).planeH p
    let read (c t i : Nat) : Sample :=
      s.sread (6 * (b.size * t + c) + i) ⟨ref, p, (max 0 (min (w - 1) (b.x0 + mvInt mvx + c - 2 + i))).toNat,
        (max 0 (min (h - 1) (b.y0 + mvInt mvy - 2 + t))).toNat⟩
    let hpass (c t : Nat) : Sample :=
      filterSix (mvPhase mvx) (read c t 0) (read c t 1) (read c t 2) (read c t 3) (read c t 4) (read c t 5)
    predicts (.inter ref p sub blk mvx mvy) s b (fun c r =>
      filterSix (mvPhase mvy) (hpass c r) (hpass c (r + 1)) (hpass c (r + 2)) (hpass c (r + 3)) (hpass c (r + 4))
        (hpass c (r + 5)))

/-- R217 (the source's invariant 2): a zero vector on a block inside the reference copies the reference samples at the
block's own position, where they are written. -/
def Obligations.ZeroVectorCopiesInPlace : Prop :=
  ∀ (ref : Slot) (p : Plane) (sub : Bool) (blk : BitVec 4) (s : State),
    interReady ref s →
    let b := geom s p sub blk
    b.x0 + b.size ≤ (s.slot ref).planeW p → b.y0 + b.size ≤ (s.slot ref).planeH p →
    ∃ t, exec (.inter ref p sub blk 0 0) s = .next t ∧
      ∀ c r v, c < b.size → r < b.size → s.cell ⟨ref, p, b.x0 + c, b.y0 + r⟩ = some v →
        t.cell (b.addr c r) = some v

/-- R51, R205: in a state of the invariant, every reference read of INTER is of an addressable cell. -/
def Obligations.ReferenceReadsStayInThePlane : Prop :=
  ∀ (s : State) (ref : Slot) (p : Plane) (x y : Int), StateInv s → (s.slot ref).valid = true →
    s.addressable ⟨ref, p, (clamp x 0 ((s.slot ref).planeW p - 1)).toNat,
      (clamp y 0 ((s.slot ref).planeH p - 1)).toNat⟩ = true

/-- R51, R131: in a state of the invariant with a macroblock context, every cell that the mux reads for a block of the
macroblock is addressable: the above row, the left column, the corner, and the above-right row or sample of the block's
own tile or, where the fix-up applies, of sub-block (3, 0). So no neighbour value depends on anything else: two states
that agree on the addressable cells, with the same registers and count of draws (log entry 4), get the same neighbours. -/
def Obligations.NeighbourReadsStayInThePlane : Prop :=
  ∀ (s : State) (p : Plane) (sub : Bool) (blk : BitVec 4) (fix : Bool) (i : Nat), StateInv s → s.mbValid = true →
    (sub = false ∨ interBlkOk p sub blk = true) → (fix = true → p = .y ∧ sub = true) →
    let b := geom s p sub blk
    let tile := regionTile s b fix
    i < b.size →
    (aPresent b = true → s.addressable ⟨b.fb, p, b.size * b.tileX + i, b.size * b.tileY - 1⟩ = true) ∧
    (lPresent b = true → s.addressable ⟨b.fb, p, b.size * b.tileX - 1, b.size * b.tileY + i⟩ = true) ∧
    (alPresent b = true → s.addressable ⟨b.fb, p, b.size * b.tileX - 1, b.size * b.tileY - 1⟩ = true) ∧
    (arPresent s b tile.1 tile.2 = true →
      s.addressable ⟨b.fb, p, b.size * (tile.1 + 1) + i, b.size * tile.2 - 1⟩ = true) ∧
    (0 < tile.2 → s.addressable ⟨b.fb, p, b.size * tile.1 + b.size - 1, b.size * tile.2 - 1⟩ = true) ∧
    (∀ s' : State, sameContext s s' → s'.draws = s.draws → sameCells (fun a => s.addressable a = true) s s' →
      (mux s' b fix).aboveRow i = (mux s b fix).aboveRow i ∧
      (mux s' b fix).leftColumn i = (mux s b fix).leftColumn i ∧
      (mux s' b fix).aboveLeft = (mux s b fix).aboveLeft ∧
      (mux s' b fix).useRow = (mux s b fix).useRow ∧
      ((mux s b fix).useRow = true → (mux s' b fix).ar i = (mux s b fix).ar i) ∧
      (mux s' b fix).br = (mux s b fix).br)

/-! ### What a command can read and write -/

/-- R202, R213: INTER reads only the named plane of the reference slot: two states with the same registers and count of
draws (log entry 4) that agree on those cells get the same block. -/
def Obligations.InterReadsOnlyTheReferencePlane : Prop :=
  ∀ (ref : Slot) (p : Plane) (sub : Bool) (blk : BitVec 4) (mvx mvy : BitVec 16) (s s' t t' : State),
    interReady ref s → sameContext s s' → s'.draws = s.draws →
    sameCells (fun a => a.fb = ref ∧ a.plane = p) s s' →
    exec (.inter ref p sub blk mvx mvy) s = .next t → exec (.inter ref p sub blk mvx mvy) s' = .next t' →
    ∀ a, (geom s p sub blk).contains a = true → t'.cell a = t.cell a

/-- R26, R265: an intra command reads only the plane it predicts, of the current raster: two states with the same registers
and count of draws (log entry 4) that agree on those cells get the same block. -/
def Obligations.IntraReadsOnlyItsOwnPlane : Prop :=
  ∀ (i : Instr) (b : Block) (s s' t t' : State),
    (∀ ref p sub blk mvx mvy, i ≠ .inter ref p sub blk mvx mvy) → predictedBlock i s = some b →
    s.mbValid = true → sameContext s s' → s'.draws = s.draws →
    sameCells (fun a => a.fb = s.mbFb ∧ a.plane = b.plane) s s' →
    exec i s = .next t → exec i s' = .next t' →
    ∀ a, b.contains a = true → t'.cell a = t.cell a

/-- R66: the core writes only slot MB_FB; CFG_RASTER, which makes a slot's cells unwritten, is the one command that
changes another slot's cells. In particular no command writes its reference. -/
def Obligations.OnlyTheCurrentRasterIsWritten : Prop :=
  ∀ (i : Instr) (s t : State) (a : SampleAddr), exec i s = .next t →
    (∀ dw dh, i ≠ .cfgRaster a.fb dw dh) → t.cell a ≠ s.cell a →
    a.fb = s.mbFb ∧ ∃ b, predictedBlock i s = some b ∧ b.contains a = true

/-! ### The host -/

/-- R60: HostRead and HostWrite, enabled only while BUSY = 0, for a configured slot and a position in the plane, and
refused otherwise. A read of an unwritten cell returns a draw. That the draw is the one the count names is the model's
choice (log entry 4), and so is that what a read returns is kept in the field `reply` (log entry 8). -/
def Obligations.HostStepsAccessOneCell : Prop :=
  ∀ (s : State) (a : SampleAddr) (v : Sample) (rest : List Event),
    (s.busy = false → s.addressable a = true →
      (∃ t, step { s with schedule := .hostWrite a v :: rest } = .next t ∧ t.cell a = some v ∧
        sameCells (fun a' => a' ≠ a) s t ∧ sameContext s t ∧ sameFault s t ∧ t.cfgErr = s.cfgErr ∧
        t.busy = s.busy ∧ t.port = s.port) ∧
      (∃ t u, step { s with schedule := .hostRead a :: rest } = .next t ∧ t.reply = some (.sample u) ∧
        (∀ u', s.cell a = some u' → u = u') ∧ (s.cell a = none → u = Config.freeSample s.draws) ∧
        t.store = s.store ∧ sameContext s t ∧ sameFault s t ∧
        t.cfgErr = s.cfgErr ∧ t.busy = s.busy ∧ t.port = s.port)) ∧
    (s.busy = true ∨ s.addressable a = false →
      (∃ r, step { s with schedule := .hostWrite a v :: rest } = .refused r) ∧
      (∃ r, step { s with schedule := .hostRead a :: rest } = .refused r))

/-- R39: a HostRead of an unwritten cell returns the draw that the count of draws names, and does not make the cell
written. Every step takes the draws it reads with from the count on and raises the count past them: a HostRead by one,
an intra command by its 3S + 1 neighbours, INTER by one for each reference read (S·S for a copy, six for each of the
S·(S + 5) entries of the intermediate buffer else); and no step lowers it, so no later step takes one of them again. That
the draws are numbered is the model's own (log entry 4). -/
def Obligations.DrawsAreFresh : Prop :=
  (∀ (s : State) (a : SampleAddr) (rest : List Event),
    s.busy = false → s.addressable a = true → s.cell a = none →
    ∃ t, step { s with schedule := .hostRead a :: rest } = .next t ∧
      t.reply = some (.sample (Config.freeSample s.draws)) ∧ t.cell a = none ∧ t.draws = s.draws + 1) ∧
  (∀ s t : State, step s = .next t → s.draws ≤ t.draws) ∧
  (∀ (i : Instr) (s t : State) (b : Block), s.mbValid = true → exec i s = .next t → predictedBlock i s = some b →
    (∀ ref p sub blk mvx mvy, i ≠ .inter ref p sub blk mvx mvy) → t.draws = s.draws + (3 * b.size + 1)) ∧
  (∀ (ref : Slot) (p : Plane) (sub : Bool) (blk : BitVec 4) (mvx mvy : BitVec 16) (s t : State),
    interReady ref s → exec (.inter ref p sub blk mvx mvy) s = .next t →
    let size := (geom s p sub blk).size
    t.draws = s.draws +
      (if mvPhase mvx = 0 ∧ mvPhase mvy = 0 then size * size else 6 * (size * (size + 5))))

/-! ### The invariant -/

/-- The invariant holds after reset. -/
def Obligations.InvariantHoldsAfterReset : Prop := StateInv State.reset

/-- Every step keeps the invariant: the registers take only the values of R35, a context names a macroblock of a
configured slot, the sample store stays canonical, and every written cell is addressable (R51). -/
def Obligations.StepKeepsTheInvariant : Prop :=
  ∀ s t : State, StateInv s → step s = .next t → StateInv t

/-- The canonical form of the store: two stores in it that read alike are the same list (log entry 5). -/
def Obligations.CanonicalStoresThatReadAlikeAreEqual : Prop :=
  ∀ m m' : Memory, m.wf → m'.wf → (∀ k, m.read k = m'.read k) → m = m'
end

