-- ==== Sys2Proof/Laws/Assembler.lean ====
section
/-! SUPPORT. When a number fits its field, and when a line of `inter` or `copy` stands for a command. -/

namespace Sys2Proof.Machine

/-- An unsigned field takes the numbers below its bound, as they are. -/
theorem natField_eq_some {len n : Nat} {f : BitVec len} :
    natField len n = some f ↔ n < 2 ^ len ∧ f = BitVec.ofNat len n := by
  unfold natField; split <;> simp_all [eq_comm]

/-- A motion-vector field takes −32768..32767, in two's complement (R94). -/
theorem mvField_eq_some {v : Int} {f : BitVec 16} :
    mvField v = some f ↔ (-32768 ≤ v ∧ v ≤ 32767) ∧ f = BitVec.ofInt 16 v := by
  unfold mvField; split <;> simp_all [eq_comm]

/-- What is put into a motion-vector field is read back. -/
theorem toInt_of_mvField {v : Int} {f : BitVec 16} (h : mvField v = some f) : f.toInt = v := by
  obtain ⟨hv, rfl⟩ := mvField_eq_some.1 h
  rw [BitVec.toInt_ofInt, Int.bmod_eq_of_le] <;> omega

/-- The one command a line of `inter` can stand for (R97). -/
theorem assembleInter_eq_some {p : Plane} {b : AsmBlock} {ref : Slot} {x y : Int} {i : Instr} :
    assembleInter p b ref x y = some i ↔
      ∃ sub blk mvx mvy, asmBlockFields b = some (sub, blk) ∧ mvField x = some mvx ∧ mvField y = some mvy ∧
        interBlkOk p sub blk = true ∧ i = .inter ref p sub blk mvx mvy := by
  unfold assembleInter
  constructor
  · intro h
    cases hb : asmBlockFields b <;> cases hx : mvField x <;> cases hy : mvField y <;> simp [hb, hx, hy] at h
    exact ⟨_, _, _, _, rfl, rfl, rfl, h.1, h.2.symm⟩
  · rintro ⟨sub, blk, mvx, mvy, hb, hx, hy, h, rfl⟩
    simp [hb, hx, hy, h]

end Sys2Proof.Machine
end

