-- ==== Sys2Proof/Laws/State.lean ====
section
/-! SUPPORT. For each operation that updates the state, each field of the result, by definition. -/

namespace Sys2Proof.Machine

/-! ### State.setSlot -/

@[simp] theorem State.setSlot_fb (s : State) (f : Slot) (r : FbSlot) : (s.setSlot f r).fb = s.fb.set f r := rfl
@[simp] theorem State.setSlot_mbValid (s : State) (f : Slot) (r : FbSlot) : (s.setSlot f r).mbValid = s.mbValid := rfl
@[simp] theorem State.setSlot_mbFb (s : State) (f : Slot) (r : FbSlot) : (s.setSlot f r).mbFb = s.mbFb := rfl
@[simp] theorem State.setSlot_mbX (s : State) (f : Slot) (r : FbSlot) : (s.setSlot f r).mbX = s.mbX := rfl
@[simp] theorem State.setSlot_mbY (s : State) (f : Slot) (r : FbSlot) : (s.setSlot f r).mbY = s.mbY := rfl
@[simp] theorem State.setSlot_faulted (s : State) (f : Slot) (r : FbSlot) : (s.setSlot f r).faulted = s.faulted := rfl
@[simp] theorem State.setSlot_faultCode (s : State) (f : Slot) (r : FbSlot) : (s.setSlot f r).faultCode = s.faultCode := rfl
@[simp] theorem State.setSlot_faultCmd (s : State) (f : Slot) (r : FbSlot) : (s.setSlot f r).faultCmd = s.faultCmd := rfl
@[simp] theorem State.setSlot_cfgErr (s : State) (f : Slot) (r : FbSlot) : (s.setSlot f r).cfgErr = s.cfgErr := rfl
@[simp] theorem State.setSlot_busy (s : State) (f : Slot) (r : FbSlot) : (s.setSlot f r).busy = s.busy := rfl
@[simp] theorem State.setSlot_store (s : State) (f : Slot) (r : FbSlot) : (s.setSlot f r).store = s.store := rfl
@[simp] theorem State.setSlot_port (s : State) (f : Slot) (r : FbSlot) : (s.setSlot f r).port = s.port := rfl
@[simp] theorem State.setSlot_schedule (s : State) (f : Slot) (r : FbSlot) : (s.setSlot f r).schedule = s.schedule := rfl
@[simp] theorem State.setSlot_reply (s : State) (f : Slot) (r : FbSlot) : (s.setSlot f r).reply = s.reply := rfl
@[simp] theorem State.setSlot_draws (s : State) (f : Slot) (r : FbSlot) : (s.setSlot f r).draws = s.draws := rfl

/-! ### State.clearSlot -/

@[simp] theorem State.clearSlot_fb (s : State) (f : Slot) : (s.clearSlot f).fb = s.fb := rfl
@[simp] theorem State.clearSlot_mbValid (s : State) (f : Slot) : (s.clearSlot f).mbValid = s.mbValid := rfl
@[simp] theorem State.clearSlot_mbFb (s : State) (f : Slot) : (s.clearSlot f).mbFb = s.mbFb := rfl
@[simp] theorem State.clearSlot_mbX (s : State) (f : Slot) : (s.clearSlot f).mbX = s.mbX := rfl
@[simp] theorem State.clearSlot_mbY (s : State) (f : Slot) : (s.clearSlot f).mbY = s.mbY := rfl
@[simp] theorem State.clearSlot_faulted (s : State) (f : Slot) : (s.clearSlot f).faulted = s.faulted := rfl
@[simp] theorem State.clearSlot_faultCode (s : State) (f : Slot) : (s.clearSlot f).faultCode = s.faultCode := rfl
@[simp] theorem State.clearSlot_faultCmd (s : State) (f : Slot) : (s.clearSlot f).faultCmd = s.faultCmd := rfl
@[simp] theorem State.clearSlot_cfgErr (s : State) (f : Slot) : (s.clearSlot f).cfgErr = s.cfgErr := rfl
@[simp] theorem State.clearSlot_busy (s : State) (f : Slot) : (s.clearSlot f).busy = s.busy := rfl
@[simp] theorem State.clearSlot_store (s : State) (f : Slot) : (s.clearSlot f).store = s.store.clearSlot f := rfl
@[simp] theorem State.clearSlot_port (s : State) (f : Slot) : (s.clearSlot f).port = s.port := rfl
@[simp] theorem State.clearSlot_schedule (s : State) (f : Slot) : (s.clearSlot f).schedule = s.schedule := rfl
@[simp] theorem State.clearSlot_reply (s : State) (f : Slot) : (s.clearSlot f).reply = s.reply := rfl
@[simp] theorem State.clearSlot_draws (s : State) (f : Slot) : (s.clearSlot f).draws = s.draws := rfl

/-! ### State.swrite -/

@[simp] theorem State.swrite_fb (s : State) (a : SampleAddr) (v : Sample) : (s.swrite a v).fb = s.fb := rfl
@[simp] theorem State.swrite_mbValid (s : State) (a : SampleAddr) (v : Sample) : (s.swrite a v).mbValid = s.mbValid := rfl
@[simp] theorem State.swrite_mbFb (s : State) (a : SampleAddr) (v : Sample) : (s.swrite a v).mbFb = s.mbFb := rfl
@[simp] theorem State.swrite_mbX (s : State) (a : SampleAddr) (v : Sample) : (s.swrite a v).mbX = s.mbX := rfl
@[simp] theorem State.swrite_mbY (s : State) (a : SampleAddr) (v : Sample) : (s.swrite a v).mbY = s.mbY := rfl
@[simp] theorem State.swrite_faulted (s : State) (a : SampleAddr) (v : Sample) : (s.swrite a v).faulted = s.faulted := rfl
@[simp] theorem State.swrite_faultCode (s : State) (a : SampleAddr) (v : Sample) : (s.swrite a v).faultCode = s.faultCode := rfl
@[simp] theorem State.swrite_faultCmd (s : State) (a : SampleAddr) (v : Sample) : (s.swrite a v).faultCmd = s.faultCmd := rfl
@[simp] theorem State.swrite_cfgErr (s : State) (a : SampleAddr) (v : Sample) : (s.swrite a v).cfgErr = s.cfgErr := rfl
@[simp] theorem State.swrite_busy (s : State) (a : SampleAddr) (v : Sample) : (s.swrite a v).busy = s.busy := rfl
@[simp] theorem State.swrite_store (s : State) (a : SampleAddr) (v : Sample) : (s.swrite a v).store = s.store.write (cellKey a) v := rfl
@[simp] theorem State.swrite_port (s : State) (a : SampleAddr) (v : Sample) : (s.swrite a v).port = s.port := rfl
@[simp] theorem State.swrite_schedule (s : State) (a : SampleAddr) (v : Sample) : (s.swrite a v).schedule = s.schedule := rfl
@[simp] theorem State.swrite_reply (s : State) (a : SampleAddr) (v : Sample) : (s.swrite a v).reply = s.reply := rfl
@[simp] theorem State.swrite_draws (s : State) (a : SampleAddr) (v : Sample) : (s.swrite a v).draws = s.draws := rfl

/-! ### raiseLogicFault -/

@[simp] theorem raiseLogicFault_fb (k : LogicFault) (w : CommandWord) (s : State) : (raiseLogicFault k w s).fb = s.fb := rfl
@[simp] theorem raiseLogicFault_mbValid (k : LogicFault) (w : CommandWord) (s : State) : (raiseLogicFault k w s).mbValid = s.mbValid := rfl
@[simp] theorem raiseLogicFault_mbFb (k : LogicFault) (w : CommandWord) (s : State) : (raiseLogicFault k w s).mbFb = s.mbFb := rfl
@[simp] theorem raiseLogicFault_mbX (k : LogicFault) (w : CommandWord) (s : State) : (raiseLogicFault k w s).mbX = s.mbX := rfl
@[simp] theorem raiseLogicFault_mbY (k : LogicFault) (w : CommandWord) (s : State) : (raiseLogicFault k w s).mbY = s.mbY := rfl
@[simp] theorem raiseLogicFault_faulted (k : LogicFault) (w : CommandWord) (s : State) : (raiseLogicFault k w s).faulted = true := rfl
@[simp] theorem raiseLogicFault_faultCode (k : LogicFault) (w : CommandWord) (s : State) : (raiseLogicFault k w s).faultCode = faultCodeOf k := rfl
@[simp] theorem raiseLogicFault_faultCmd (k : LogicFault) (w : CommandWord) (s : State) : (raiseLogicFault k w s).faultCmd = w := rfl
@[simp] theorem raiseLogicFault_cfgErr (k : LogicFault) (w : CommandWord) (s : State) : (raiseLogicFault k w s).cfgErr = s.cfgErr := rfl
@[simp] theorem raiseLogicFault_busy (k : LogicFault) (w : CommandWord) (s : State) : (raiseLogicFault k w s).busy = false := rfl
@[simp] theorem raiseLogicFault_store (k : LogicFault) (w : CommandWord) (s : State) : (raiseLogicFault k w s).store = s.store := rfl
@[simp] theorem raiseLogicFault_port (k : LogicFault) (w : CommandWord) (s : State) : (raiseLogicFault k w s).port = s.port := rfl
@[simp] theorem raiseLogicFault_schedule (k : LogicFault) (w : CommandWord) (s : State) : (raiseLogicFault k w s).schedule = s.schedule := rfl
@[simp] theorem raiseLogicFault_reply (k : LogicFault) (w : CommandWord) (s : State) : (raiseLogicFault k w s).reply = s.reply := rfl
@[simp] theorem raiseLogicFault_draws (k : LogicFault) (w : CommandWord) (s : State) : (raiseLogicFault k w s).draws = s.draws := rfl

/-! ### raiseUnsupported -/

@[simp] theorem raiseUnsupported_fb (e : UnsupportedInput) (s : State) : (raiseUnsupported e s).fb = s.fb := rfl
@[simp] theorem raiseUnsupported_mbValid (e : UnsupportedInput) (s : State) : (raiseUnsupported e s).mbValid = s.mbValid := rfl
@[simp] theorem raiseUnsupported_mbFb (e : UnsupportedInput) (s : State) : (raiseUnsupported e s).mbFb = s.mbFb := rfl
@[simp] theorem raiseUnsupported_mbX (e : UnsupportedInput) (s : State) : (raiseUnsupported e s).mbX = s.mbX := rfl
@[simp] theorem raiseUnsupported_mbY (e : UnsupportedInput) (s : State) : (raiseUnsupported e s).mbY = s.mbY := rfl
@[simp] theorem raiseUnsupported_faulted (e : UnsupportedInput) (s : State) : (raiseUnsupported e s).faulted = s.faulted := rfl
@[simp] theorem raiseUnsupported_faultCode (e : UnsupportedInput) (s : State) : (raiseUnsupported e s).faultCode = s.faultCode := rfl
@[simp] theorem raiseUnsupported_faultCmd (e : UnsupportedInput) (s : State) : (raiseUnsupported e s).faultCmd = s.faultCmd := rfl
@[simp] theorem raiseUnsupported_cfgErr (e : UnsupportedInput) (s : State) : (raiseUnsupported e s).cfgErr = cfgErrOf e := rfl
@[simp] theorem raiseUnsupported_busy (e : UnsupportedInput) (s : State) : (raiseUnsupported e s).busy = s.busy := rfl
@[simp] theorem raiseUnsupported_store (e : UnsupportedInput) (s : State) : (raiseUnsupported e s).store = s.store := rfl
@[simp] theorem raiseUnsupported_port (e : UnsupportedInput) (s : State) : (raiseUnsupported e s).port = s.port := rfl
@[simp] theorem raiseUnsupported_schedule (e : UnsupportedInput) (s : State) : (raiseUnsupported e s).schedule = s.schedule := rfl
@[simp] theorem raiseUnsupported_reply (e : UnsupportedInput) (s : State) : (raiseUnsupported e s).reply = s.reply := rfl
@[simp] theorem raiseUnsupported_draws (e : UnsupportedInput) (s : State) : (raiseUnsupported e s).draws = s.draws := rfl

/-! ### endRaster -/

@[simp] theorem endRaster_fb (f : Slot) (s : State) : (endRaster f s).fb = s.fb.set f FbSlot.reset := rfl
@[simp] theorem endRaster_mbValid (f : Slot) (s : State) : (endRaster f s).mbValid = (s.mbValid && s.mbFb != f) := rfl
@[simp] theorem endRaster_mbFb (f : Slot) (s : State) : (endRaster f s).mbFb = s.mbFb := rfl
@[simp] theorem endRaster_mbX (f : Slot) (s : State) : (endRaster f s).mbX = s.mbX := rfl
@[simp] theorem endRaster_mbY (f : Slot) (s : State) : (endRaster f s).mbY = s.mbY := rfl
@[simp] theorem endRaster_faulted (f : Slot) (s : State) : (endRaster f s).faulted = s.faulted := rfl
@[simp] theorem endRaster_faultCode (f : Slot) (s : State) : (endRaster f s).faultCode = s.faultCode := rfl
@[simp] theorem endRaster_faultCmd (f : Slot) (s : State) : (endRaster f s).faultCmd = s.faultCmd := rfl
@[simp] theorem endRaster_cfgErr (f : Slot) (s : State) : (endRaster f s).cfgErr = s.cfgErr := rfl
@[simp] theorem endRaster_busy (f : Slot) (s : State) : (endRaster f s).busy = s.busy := rfl
@[simp] theorem endRaster_store (f : Slot) (s : State) : (endRaster f s).store = s.store.clearSlot f := rfl
@[simp] theorem endRaster_port (f : Slot) (s : State) : (endRaster f s).port = s.port := rfl
@[simp] theorem endRaster_schedule (f : Slot) (s : State) : (endRaster f s).schedule = s.schedule := rfl
@[simp] theorem endRaster_reply (f : Slot) (s : State) : (endRaster f s).reply = s.reply := rfl
@[simp] theorem endRaster_draws (f : Slot) (s : State) : (endRaster f s).draws = s.draws := rfl

/-! ### beginRaster -/

@[simp] theorem beginRaster_fb (f : Slot) (dw dh : BitVec 14) (s : State) : (beginRaster f dw dh s).fb = s.fb.set f ⟨true, dw, dh⟩ := rfl
@[simp] theorem beginRaster_mbValid (f : Slot) (dw dh : BitVec 14) (s : State) : (beginRaster f dw dh s).mbValid = s.mbValid := rfl
@[simp] theorem beginRaster_mbFb (f : Slot) (dw dh : BitVec 14) (s : State) : (beginRaster f dw dh s).mbFb = s.mbFb := rfl
@[simp] theorem beginRaster_mbX (f : Slot) (dw dh : BitVec 14) (s : State) : (beginRaster f dw dh s).mbX = s.mbX := rfl
@[simp] theorem beginRaster_mbY (f : Slot) (dw dh : BitVec 14) (s : State) : (beginRaster f dw dh s).mbY = s.mbY := rfl
@[simp] theorem beginRaster_faulted (f : Slot) (dw dh : BitVec 14) (s : State) : (beginRaster f dw dh s).faulted = s.faulted := rfl
@[simp] theorem beginRaster_faultCode (f : Slot) (dw dh : BitVec 14) (s : State) : (beginRaster f dw dh s).faultCode = s.faultCode := rfl
@[simp] theorem beginRaster_faultCmd (f : Slot) (dw dh : BitVec 14) (s : State) : (beginRaster f dw dh s).faultCmd = s.faultCmd := rfl
@[simp] theorem beginRaster_cfgErr (f : Slot) (dw dh : BitVec 14) (s : State) : (beginRaster f dw dh s).cfgErr = 0 := rfl
@[simp] theorem beginRaster_busy (f : Slot) (dw dh : BitVec 14) (s : State) : (beginRaster f dw dh s).busy = s.busy := rfl
@[simp] theorem beginRaster_store (f : Slot) (dw dh : BitVec 14) (s : State) : (beginRaster f dw dh s).store = s.store := rfl
@[simp] theorem beginRaster_port (f : Slot) (dw dh : BitVec 14) (s : State) : (beginRaster f dw dh s).port = s.port := rfl
@[simp] theorem beginRaster_schedule (f : Slot) (dw dh : BitVec 14) (s : State) : (beginRaster f dw dh s).schedule = s.schedule := rfl
@[simp] theorem beginRaster_reply (f : Slot) (dw dh : BitVec 14) (s : State) : (beginRaster f dw dh s).reply = s.reply := rfl
@[simp] theorem beginRaster_draws (f : Slot) (dw dh : BitVec 14) (s : State) : (beginRaster f dw dh s).draws = s.draws := rfl

/-! ### setContext -/

@[simp] theorem setContext_fb (f : Slot) (x y : BitVec 10) (s : State) : (setContext f x y s).fb = s.fb := rfl
@[simp] theorem setContext_mbValid (f : Slot) (x y : BitVec 10) (s : State) : (setContext f x y s).mbValid = true := rfl
@[simp] theorem setContext_mbFb (f : Slot) (x y : BitVec 10) (s : State) : (setContext f x y s).mbFb = f := rfl
@[simp] theorem setContext_mbX (f : Slot) (x y : BitVec 10) (s : State) : (setContext f x y s).mbX = x := rfl
@[simp] theorem setContext_mbY (f : Slot) (x y : BitVec 10) (s : State) : (setContext f x y s).mbY = y := rfl
@[simp] theorem setContext_faulted (f : Slot) (x y : BitVec 10) (s : State) : (setContext f x y s).faulted = s.faulted := rfl
@[simp] theorem setContext_faultCode (f : Slot) (x y : BitVec 10) (s : State) : (setContext f x y s).faultCode = s.faultCode := rfl
@[simp] theorem setContext_faultCmd (f : Slot) (x y : BitVec 10) (s : State) : (setContext f x y s).faultCmd = s.faultCmd := rfl
@[simp] theorem setContext_cfgErr (f : Slot) (x y : BitVec 10) (s : State) : (setContext f x y s).cfgErr = s.cfgErr := rfl
@[simp] theorem setContext_busy (f : Slot) (x y : BitVec 10) (s : State) : (setContext f x y s).busy = s.busy := rfl
@[simp] theorem setContext_store (f : Slot) (x y : BitVec 10) (s : State) : (setContext f x y s).store = s.store := rfl
@[simp] theorem setContext_port (f : Slot) (x y : BitVec 10) (s : State) : (setContext f x y s).port = s.port := rfl
@[simp] theorem setContext_schedule (f : Slot) (x y : BitVec 10) (s : State) : (setContext f x y s).schedule = s.schedule := rfl
@[simp] theorem setContext_reply (f : Slot) (x y : BitVec 10) (s : State) : (setContext f x y s).reply = s.reply := rfl
@[simp] theorem setContext_draws (f : Slot) (x y : BitVec 10) (s : State) : (setContext f x y s).draws = s.draws := rfl

/-! ### predictBlock -/

@[simp] theorem predictBlock_fb (b : Block) (pred : Nat → Nat → Sample) (n : Nat) (s : State) : (predictBlock b pred n s).fb = s.fb := rfl
@[simp] theorem predictBlock_mbValid (b : Block) (pred : Nat → Nat → Sample) (n : Nat) (s : State) : (predictBlock b pred n s).mbValid = s.mbValid := rfl
@[simp] theorem predictBlock_mbFb (b : Block) (pred : Nat → Nat → Sample) (n : Nat) (s : State) : (predictBlock b pred n s).mbFb = s.mbFb := rfl
@[simp] theorem predictBlock_mbX (b : Block) (pred : Nat → Nat → Sample) (n : Nat) (s : State) : (predictBlock b pred n s).mbX = s.mbX := rfl
@[simp] theorem predictBlock_mbY (b : Block) (pred : Nat → Nat → Sample) (n : Nat) (s : State) : (predictBlock b pred n s).mbY = s.mbY := rfl
@[simp] theorem predictBlock_faulted (b : Block) (pred : Nat → Nat → Sample) (n : Nat) (s : State) : (predictBlock b pred n s).faulted = s.faulted := rfl
@[simp] theorem predictBlock_faultCode (b : Block) (pred : Nat → Nat → Sample) (n : Nat) (s : State) : (predictBlock b pred n s).faultCode = s.faultCode := rfl
@[simp] theorem predictBlock_faultCmd (b : Block) (pred : Nat → Nat → Sample) (n : Nat) (s : State) : (predictBlock b pred n s).faultCmd = s.faultCmd := rfl
@[simp] theorem predictBlock_cfgErr (b : Block) (pred : Nat → Nat → Sample) (n : Nat) (s : State) : (predictBlock b pred n s).cfgErr = s.cfgErr := rfl
@[simp] theorem predictBlock_busy (b : Block) (pred : Nat → Nat → Sample) (n : Nat) (s : State) : (predictBlock b pred n s).busy = s.busy := rfl
@[simp] theorem predictBlock_store (b : Block) (pred : Nat → Nat → Sample) (n : Nat) (s : State) : (predictBlock b pred n s).store = writeBlock b pred s.store := rfl
@[simp] theorem predictBlock_port (b : Block) (pred : Nat → Nat → Sample) (n : Nat) (s : State) : (predictBlock b pred n s).port = s.port := rfl
@[simp] theorem predictBlock_schedule (b : Block) (pred : Nat → Nat → Sample) (n : Nat) (s : State) : (predictBlock b pred n s).schedule = s.schedule := rfl
@[simp] theorem predictBlock_reply (b : Block) (pred : Nat → Nat → Sample) (n : Nat) (s : State) : (predictBlock b pred n s).reply = s.reply := rfl
@[simp] theorem predictBlock_draws (b : Block) (pred : Nat → Nat → Sample) (n : Nat) (s : State) : (predictBlock b pred n s).draws = s.draws + n := rfl

/-! ### beginCommand -/

@[simp] theorem beginCommand_fb (s : State) : (beginCommand s).fb = s.fb := rfl
@[simp] theorem beginCommand_mbValid (s : State) : (beginCommand s).mbValid = s.mbValid := rfl
@[simp] theorem beginCommand_mbFb (s : State) : (beginCommand s).mbFb = s.mbFb := rfl
@[simp] theorem beginCommand_mbX (s : State) : (beginCommand s).mbX = s.mbX := rfl
@[simp] theorem beginCommand_mbY (s : State) : (beginCommand s).mbY = s.mbY := rfl
@[simp] theorem beginCommand_faulted (s : State) : (beginCommand s).faulted = s.faulted := rfl
@[simp] theorem beginCommand_faultCode (s : State) : (beginCommand s).faultCode = s.faultCode := rfl
@[simp] theorem beginCommand_faultCmd (s : State) : (beginCommand s).faultCmd = s.faultCmd := rfl
@[simp] theorem beginCommand_cfgErr (s : State) : (beginCommand s).cfgErr = s.cfgErr := rfl
@[simp] theorem beginCommand_busy (s : State) : (beginCommand s).busy = true := rfl
@[simp] theorem beginCommand_store (s : State) : (beginCommand s).store = s.store := rfl
@[simp] theorem beginCommand_port (s : State) : (beginCommand s).port = s.port := rfl
@[simp] theorem beginCommand_schedule (s : State) : (beginCommand s).schedule = s.schedule := rfl
@[simp] theorem beginCommand_reply (s : State) : (beginCommand s).reply = s.reply := rfl
@[simp] theorem beginCommand_draws (s : State) : (beginCommand s).draws = s.draws := rfl

/-! ### endCommand -/

@[simp] theorem endCommand_fb (s : State) : (endCommand s).fb = s.fb := rfl
@[simp] theorem endCommand_mbValid (s : State) : (endCommand s).mbValid = s.mbValid := rfl
@[simp] theorem endCommand_mbFb (s : State) : (endCommand s).mbFb = s.mbFb := rfl
@[simp] theorem endCommand_mbX (s : State) : (endCommand s).mbX = s.mbX := rfl
@[simp] theorem endCommand_mbY (s : State) : (endCommand s).mbY = s.mbY := rfl
@[simp] theorem endCommand_faulted (s : State) : (endCommand s).faulted = s.faulted := rfl
@[simp] theorem endCommand_faultCode (s : State) : (endCommand s).faultCode = s.faultCode := rfl
@[simp] theorem endCommand_faultCmd (s : State) : (endCommand s).faultCmd = s.faultCmd := rfl
@[simp] theorem endCommand_cfgErr (s : State) : (endCommand s).cfgErr = s.cfgErr := rfl
@[simp] theorem endCommand_busy (s : State) : (endCommand s).busy = false := rfl
@[simp] theorem endCommand_store (s : State) : (endCommand s).store = s.store := rfl
@[simp] theorem endCommand_port (s : State) : (endCommand s).port = s.port := rfl
@[simp] theorem endCommand_schedule (s : State) : (endCommand s).schedule = s.schedule := rfl
@[simp] theorem endCommand_reply (s : State) : (endCommand s).reply = s.reply := rfl
@[simp] theorem endCommand_draws (s : State) : (endCommand s).draws = s.draws := rfl

end Sys2Proof.Machine
end

