-- ==== Sys2Proof/Laws/Bits.lean ====
section
/-! SUPPORT. Fields of words as numbers: a concatenation is a sum, a field is a quotient and a remainder. -/

namespace Sys2Proof

/-- `{x, y}` as a number. -/
theorem toNat_append_eq_add {n m : Nat} (x : BitVec n) (y : BitVec m) :
    (x ++ y).toNat = x.toNat * 2 ^ m + y.toNat := by
  rw [BitVec.toNat_append, ← Nat.shiftLeft_add_eq_or_of_lt y.isLt, Nat.shiftLeft_eq]

/-- `w[lo + len − 1 : lo]` as a number (R8). -/
theorem toNat_bits (w : CommandWord) (lo len : Nat) : (bits w lo len).toNat = w.toNat / 2 ^ lo % 2 ^ len := by
  simp [bits, Nat.shiftRight_eq_div_pow]

/-- A field whose bits are those of `v`. -/
theorem bits_eq_of_toNat {w : CommandWord} {lo len : Nat} {v : BitVec len}
    (h : w.toNat / 2 ^ lo % 2 ^ len = v.toNat) : bits w lo len = v :=
  BitVec.eq_of_toNat_eq ((toNat_bits w lo len).trans h)

theorem toNat_ofBool (b : Bool) : (BitVec.ofBool b).toNat = b.toNat := by cases b <;> rfl

end Sys2Proof
end

