-- ==== Sys2Proof/Laws/Memory.lean ====
section
/-! SUPPORT. The laws of the sample store: what a read finds after a write, after a slot is cleared and after a block is
written, and that each of these keeps the canonical form. -/

namespace Sys2Proof.Machine

/-! ### Keys -/

theorem planeIndex_lt (p : Plane) : planeIndex p < 3 := by cases p <;> decide

theorem planeIndex_inj {p q : Plane} : planeIndex p = planeIndex q ↔ p = q := by
  cases p <;> cases q <;> decide

/-- Different cells have different keys. -/
theorem cellKey_inj {a b : SampleAddr} : cellKey a = cellKey b ↔ a = b := by
  refine ⟨fun h => ?_, fun h => h ▸ rfl⟩
  obtain ⟨fa, pa, xa, ya⟩ := a
  obtain ⟨fb, pb, xb, yb⟩ := b
  simp only [cellKey] at h
  have := planeIndex_lt pa
  have := planeIndex_lt pb
  have hfa : fa.toNat < 4 := fa.isLt
  have hfb : fb.toNat < 4 := fb.isLt
  have hp : Nat.pair xa ya = Nat.pair xb yb := by omega
  have hf : fa.toNat = fb.toNat := by omega
  have hi : planeIndex pa = planeIndex pb := by omega
  rw [Nat.pair_eq_pair] at hp
  simp [hp, BitVec.eq_of_toNat_eq hf, planeIndex_inj.1 hi]

theorem keySlot_cellKey (a : SampleAddr) : keySlot (cellKey a) = a.fb.toNat := by
  have := planeIndex_lt a.plane
  have hf : a.fb.toNat < 4 := a.fb.isLt
  simp only [keySlot, cellKey]
  omega

/-! ### One cell -/

theorem Memory.read_write_same (m : Memory) (k : Nat) (v : Sample) : (m.write k v).read k = some v := by
  induction m with
  | nil => simp [Memory.write, Memory.read]
  | cons c m ih =>
    obtain ⟨k', v'⟩ := c
    simp only [Memory.write]
    split
    · simp [Memory.read]
    · split
      · simp [Memory.read]
      · rename_i h; simp [Memory.read, h, ih]

theorem Memory.read_write_ne {m : Memory} {k j : Nat} (v : Sample) (h : j ≠ k) :
    (m.write k v).read j = m.read j := by
  induction m with
  | nil => simp [Memory.write, Memory.read, h]
  | cons c m ih =>
    obtain ⟨k', v'⟩ := c
    simp only [Memory.write]
    split
    · simp [Memory.read, h]
    · split
      · rename_i h'; subst h'; simp [Memory.read, h]
      · simp [Memory.read, ih]

/-- The entries of a memory after a write: the new one, and old ones. -/
theorem Memory.mem_write {m : Memory} {k : Nat} {v : Sample} {c : Host.Cell} (h : c ∈ m.write k v) :
    c = (k, v) ∨ c ∈ m := by
  induction m with
  | nil => simpa [Memory.write] using h
  | cons d m ih =>
    obtain ⟨k', v'⟩ := d
    simp only [Memory.write] at h
    split at h
    · simpa using h
    · split at h
      · rcases List.mem_cons.1 h with h | h <;> simp [h]
      · rcases List.mem_cons.1 h with h | h
        · simp [h]
        · rcases ih h with h | h <;> simp [h]

theorem Memory.wf_write {m : Memory} (k : Nat) (v : Sample) (h : m.wf) : (m.write k v).wf := by
  induction m with
  | nil => simp [Memory.write, Memory.wf]
  | cons c m ih =>
    obtain ⟨k', v'⟩ := c
    obtain ⟨hlt, hm⟩ := List.pairwise_cons.1 h
    simp only [Memory.write]
    split
    · rename_i hk
      refine List.pairwise_cons.2 ⟨fun c hc => ?_, h⟩
      rcases List.mem_cons.1 hc with rfl | hc
      · exact hk
      · exact Nat.lt_trans hk (hlt c hc)
    · split
      · rename_i hk
        subst hk
        exact List.pairwise_cons.2 ⟨hlt, hm⟩
      · refine List.pairwise_cons.2 ⟨fun c hc => ?_, ih hm⟩
        rcases Memory.mem_write hc with rfl | hc
        · show k' < k; omega
        · exact hlt c hc

theorem Memory.read_clearSlot (m : Memory) (f : Slot) (k : Nat) :
    (m.clearSlot f).read k = if keySlot k = f.toNat then none else m.read k := by
  induction m with
  | nil => simp [Memory.clearSlot, Memory.read]
  | cons c m ih =>
    obtain ⟨k', v'⟩ := c
    simp only [Memory.clearSlot] at ih
    simp only [Memory.clearSlot, List.filter_cons]
    split
    · rename_i h
      simp only [bne_iff_ne, ne_eq] at h
      simp only [Memory.read, ih]
      by_cases hk : k = k'
      · subst hk; simp [h]
      · simp [hk]
    · rename_i h
      simp only [bne_iff_ne, ne_eq, not_not] at h
      rw [ih]
      by_cases hk : k = k'
      · subst hk; simp [h]
      · simp [Memory.read, hk]

theorem Memory.wf_clearSlot {m : Memory} (f : Slot) (h : m.wf) : (m.clearSlot f).wf := List.Pairwise.filter _ h

/-- In a canonical memory, what a read finds is an entry. -/
theorem Memory.read_eq_some_iff {m : Memory} (h : m.wf) (k : Nat) (v : Sample) :
    m.read k = some v ↔ (k, v) ∈ m := by
  induction m with
  | nil => simp [Memory.read]
  | cons c m ih =>
    obtain ⟨k', v'⟩ := c
    obtain ⟨hlt, hm⟩ := List.pairwise_cons.1 h
    by_cases hk : k = k'
    · subst hk
      have hno : (k, v) ∉ m := fun hc => absurd (hlt _ hc) (Nat.lt_irrefl k)
      simp [Memory.read, hno, eq_comm]
    · simp [Memory.read, hk, ih hm]

/-- Canonical memories with the same entries are the same list. -/
theorem Memory.eq_of_mem_iff : ∀ {m m' : Memory}, m.wf → m'.wf → (∀ c, c ∈ m ↔ c ∈ m') → m = m'
  | [], [], _, _, _ => rfl
  | [], c :: _, _, _, h => absurd ((h c).2 (by simp)) (by simp)
  | c :: _, [], _, _, h => absurd ((h c).1 (by simp)) (by simp)
  | c :: m, c' :: m', hm, hm', h => by
    obtain ⟨hlt, hwf⟩ := List.pairwise_cons.1 hm
    obtain ⟨hlt', hwf'⟩ := List.pairwise_cons.1 hm'
    have hc : c = c' := by
      rcases List.mem_cons.1 ((h c).1 (by simp)) with e | e
      · exact e
      · rcases List.mem_cons.1 ((h c').2 (by simp)) with e' | e'
        · exact e'.symm
        · exact absurd (hlt' c e) (Nat.lt_asymm (hlt c' e'))
    subst hc
    have : m = m' := Memory.eq_of_mem_iff hwf hwf' fun d => ⟨fun hd => by
        rcases List.mem_cons.1 ((h d).1 (List.mem_cons_of_mem _ hd)) with e | e
        · subst e; exact absurd (hlt d hd) (Nat.lt_irrefl _)
        · exact e, fun hd => by
        rcases List.mem_cons.1 ((h d).2 (List.mem_cons_of_mem _ hd)) with e | e
        · subst e; exact absurd (hlt' d hd) (Nat.lt_irrefl _)
        · exact e⟩
    rw [this]

/-! ### The cells of a state -/

@[simp] theorem cell_swrite_same (s : State) (a : SampleAddr) (v : Sample) : (s.swrite a v).cell a = some v :=
  Memory.read_write_same _ _ _

theorem cell_swrite_ne (s : State) {a a' : SampleAddr} (v : Sample) (h : a' ≠ a) :
    (s.swrite a v).cell a' = s.cell a' :=
  Memory.read_write_ne v (fun e => h (cellKey_inj.1 e))

theorem cell_clearSlot (s : State) (f : Slot) (a : SampleAddr) :
    (s.clearSlot f).cell a = if a.fb = f then none else s.cell a := by
  simp [State.cell, Memory.read_clearSlot, keySlot_cellKey, BitVec.toNat_inj]

/-- States with the same store have the same cells. -/
theorem cell_congr {s t : State} (h : t.store = s.store) (a : SampleAddr) : t.cell a = s.cell a := by
  simp [State.cell, h]

/-- A read of a written cell gives its value, whatever the draw. -/
theorem sread_of_written {s : State} {a : SampleAddr} {v : Sample} (h : s.cell a = some v) (j : Nat) :
    s.sread j a = v := by simp [State.sread, h]

/-! ### A block -/

theorem mem_blockCells {size c r : Nat} : (c, r) ∈ blockCells size ↔ c < size ∧ r < size := by
  simp [blockCells, and_comm]

theorem Block.addr_inj (b : Block) {c r c' r' : Nat} : b.addr c r = b.addr c' r' ↔ c = c' ∧ r = r' := by
  simp [Block.addr]

theorem Block.contains_iff (b : Block) (a : SampleAddr) :
    b.contains a = true ↔ ∃ c r, c < b.size ∧ r < b.size ∧ a = b.addr c r := by
  obtain ⟨f, p, x, y⟩ := a
  simp only [Block.contains, Bool.and_eq_true, beq_iff_eq, decide_eq_true_eq, Block.addr, SampleAddr.mk.injEq]
  constructor
  · rintro ⟨⟨⟨⟨⟨rfl, rfl⟩, h1⟩, h2⟩, h3⟩, h4⟩
    exact ⟨x - b.x0, y - b.y0, by omega, by omega, rfl, rfl, by omega, by omega⟩
  · rintro ⟨c, r, hc, hr, rfl, rfl, rfl, rfl⟩
    simp; omega

/-- Writing a list of cells leaves the keys of no listed cell alone. -/
theorem foldl_write_other (key : Nat × Nat → Nat) (val : Nat × Nat → Sample) (k : Nat) :
    ∀ (cells : List (Nat × Nat)) (m : Memory), (∀ q ∈ cells, key q ≠ k) →
      (cells.foldl (fun m q => m.write (key q) (val q)) m).read k = m.read k
  | [], _, _ => rfl
  | q :: cells, m, h => by
    rw [List.foldl_cons, foldl_write_other key val k cells _ (fun q' hq' => h q' (List.mem_cons_of_mem _ hq')),
      Memory.read_write_ne _ (h q (by simp)).symm]

/-- Writing a list of cells with different keys leaves each with its value. -/
theorem foldl_write_listed (key : Nat × Nat → Nat) (val : Nat × Nat → Sample)
    (hinj : ∀ q q', key q = key q' → q = q') (q : Nat × Nat) :
    ∀ (cells : List (Nat × Nat)) (m : Memory), q ∈ cells →
      (cells.foldl (fun m q => m.write (key q) (val q)) m).read (key q) = some (val q)
  | q' :: cells, m, h => by
    rw [List.foldl_cons]
    by_cases hq : q ∈ cells
    · exact foldl_write_listed key val hinj q cells _ hq
    · obtain rfl : q = q' := by simpa [hq] using h
      rw [foldl_write_other key val (key q) cells _ (fun q'' hq'' e => hq (hinj _ _ e ▸ hq'')),
        Memory.read_write_same]

theorem foldl_write_wf (key : Nat × Nat → Nat) (val : Nat × Nat → Sample) :
    ∀ (cells : List (Nat × Nat)) (m : Memory), m.wf →
      Memory.wf (cells.foldl (fun m q => m.write (key q) (val q)) m)
  | [], _, h => h
  | _ :: cells, _, h => foldl_write_wf key val cells _ (Memory.wf_write _ _ h)

theorem mem_foldl_write (key : Nat × Nat → Nat) (val : Nat × Nat → Sample) (e : Host.Cell) :
    ∀ (cells : List (Nat × Nat)) (m : Memory),
      e ∈ (cells.foldl (fun m q => m.write (key q) (val q)) m : Memory) → (∃ q ∈ cells, e.1 = key q) ∨ e ∈ m
  | [], _, h => .inr h
  | q :: cells, m, h => by
    rcases mem_foldl_write key val e cells _ h with ⟨q', hq', he⟩ | h
    · exact .inl ⟨q', List.mem_cons_of_mem _ hq', he⟩
    · rcases Memory.mem_write h with rfl | h
      · exact .inl ⟨q, by simp, rfl⟩
      · exact .inr h

/-- A written block holds its predicted samples. -/
theorem read_writeBlock_inside (b : Block) (pred : Nat → Nat → Sample) (m : Memory) {c r : Nat}
    (hc : c < b.size) (hr : r < b.size) : (writeBlock b pred m).read (cellKey (b.addr c r)) = some (pred c r) :=
  foldl_write_listed (fun q => cellKey (b.addr q.1 q.2)) (fun q => pred q.1 q.2)
    (fun q q' h => by
      have := (b.addr_inj).1 (cellKey_inj.1 h)
      exact Prod.ext this.1 this.2) (c, r) _ _ (mem_blockCells.2 ⟨hc, hr⟩)

/-- Writing a block changes no cell outside it. -/
theorem read_writeBlock_outside (b : Block) (pred : Nat → Nat → Sample) (m : Memory) {a : SampleAddr}
    (h : b.contains a = false) : (writeBlock b pred m).read (cellKey a) = m.read (cellKey a) :=
  foldl_write_other (fun q => cellKey (b.addr q.1 q.2)) (fun q => pred q.1 q.2) _ _ _ (fun q hq e => by
    obtain ⟨hc, hr⟩ := mem_blockCells.1 (show (q.1, q.2) ∈ _ from hq)
    have : b.contains a = true := (b.contains_iff a).2 ⟨q.1, q.2, hc, hr, (cellKey_inj.1 e).symm⟩
    simp [h] at this)

theorem wf_writeBlock (b : Block) (pred : Nat → Nat → Sample) {m : Memory} (h : m.wf) :
    Memory.wf (writeBlock b pred m) := foldl_write_wf _ _ _ _ h

/-- The entries of the store after a block is written: cells of the block, and old ones. -/
theorem mem_writeBlock {b : Block} {pred : Nat → Nat → Sample} {m : Memory} {e : Host.Cell}
    (h : e ∈ writeBlock b pred m) :
    (∃ c r, c < b.size ∧ r < b.size ∧ e.1 = cellKey (b.addr c r)) ∨ e ∈ m := by
  rcases mem_foldl_write _ _ e _ _ h with ⟨q, hq, he⟩ | h
  · obtain ⟨hc, hr⟩ := mem_blockCells.1 (show (q.1, q.2) ∈ _ from hq)
    exact .inl ⟨q.1, q.2, hc, hr, he⟩
  · exact .inr h

theorem cell_predictBlock_inside (b : Block) (pred : Nat → Nat → Sample) (n : Nat) (s : State) {c r : Nat}
    (hc : c < b.size) (hr : r < b.size) : (predictBlock b pred n s).cell (b.addr c r) = some (pred c r) :=
  read_writeBlock_inside b pred s.store hc hr

theorem cell_predictBlock_outside (b : Block) (pred : Nat → Nat → Sample) (n : Nat) (s : State) {a : SampleAddr}
    (h : b.contains a = false) : (predictBlock b pred n s).cell a = s.cell a :=
  read_writeBlock_outside b pred s.store h

end Sys2Proof.Machine
end

