-- ==== Sys2Proof/Laws/Operands.lean ====
section
/-! SUPPORT. The laws of the arithmetic, of the slot registers and of block geometry. -/

namespace Sys2Proof.Machine

/-! ### Arithmetic -/

theorem clamp_mem {v lo hi : Int} (h : lo ≤ hi) : lo ≤ clamp v lo hi ∧ clamp v lo hi ≤ hi := by
  simp only [clamp]; omega

theorem clamp_of_mem {v lo hi : Int} (h : lo ≤ v) (h' : v ≤ hi) : clamp v lo hi = v := by
  simp only [clamp]; omega

/-- `clamp255` narrows nothing but its clamp (R10). -/
theorem toNat_clamp255 (x : Int) : (clamp255 x).toNat = (clamp x 0 255).toNat := by
  have h := clamp_mem (v := x) (show (0 : Int) ≤ 255 by decide)
  simp only [clamp255, BitVec.toNat_ofInt]
  congr 1
  omega

/-- A value in the range of a sample passes `clamp255` unchanged. -/
theorem clamp255_toNat (v : Sample) : clamp255 (v.toNat : Int) = v := by
  have := v.isLt
  apply BitVec.eq_of_toNat_eq
  rw [toNat_clamp255, clamp_of_mem (by omega) (by omega)]
  rfl

/-- `avg2` never leaves 0..255 (R11). -/
theorem toNat_avg2 (x y : Sample) : (avg2 x y).toNat = (x.toNat + y.toNat + 1) / 2 := by
  have := x.isLt
  have := y.isLt
  simp only [avg2, BitVec.toNat_ofNat]
  omega

/-- `avg3` never leaves 0..255 (R11). -/
theorem toNat_avg3 (x y z : Sample) : (avg3 x y z).toNat = (x.toNat + 2 * y.toNat + z.toNat + 2) / 4 := by
  have := x.isLt
  have := y.isLt
  have := z.isLt
  simp only [avg3, BitVec.toNat_ofNat]
  omega

/-! ### Slot registers -/

@[simp] theorem FbFile.get_set_same (r : FbFile) (f : Slot) (v : FbSlot) : (r.set f v).get f = v := by
  simp only [FbFile.get, FbFile.set]
  split <;> (try split) <;> (try split) <;> simp_all

theorem FbFile.get_set_ne (r : FbFile) {f g : Slot} (v : FbSlot) (h : g ≠ f) : (r.set f v).get g = r.get g := by
  have cases4 : ∀ h : Slot, h = 0 ∨ h = 1 ∨ h = 2 ∨ h = 3 := by decide
  rcases cases4 f with rfl | rfl | rfl | rfl <;> rcases cases4 g with rfl | rfl | rfl | rfl <;>
    first
      | exact absurd rfl h
      | rfl

/-- The registers of a slot after those of slot `f` are written. -/
theorem FbFile.get_set (r : FbFile) (f g : Slot) (v : FbSlot) :
    (r.set f v).get g = if g = f then v else r.get g := by
  by_cases h : g = f
  · subst h; simp
  · simp [h, FbFile.get_set_ne]

@[simp] theorem slot_setSlot_same (s : State) (f : Slot) (v : FbSlot) : (s.setSlot f v).slot f = v :=
  FbFile.get_set_same _ _ _

/-- States with the same slot registers have the same slots. -/
theorem slot_congr {s t : State} (h : t.fb = s.fb) (f : Slot) : t.slot f = s.slot f := by
  simp [State.slot, h]

theorem addressable_congr {s t : State} (h : t.fb = s.fb) (a : SampleAddr) :
    t.addressable a = s.addressable a := by simp [State.addressable, slot_congr h]

theorem addressable_iff (s : State) (a : SampleAddr) :
    s.addressable a = true ↔ (s.slot a.fb).valid = true ∧ a.x < (s.slot a.fb).planeW a.plane ∧
      a.y < (s.slot a.fb).planeH a.plane := by
  simp [State.addressable, and_assoc]

/-! ### Block geometry -/

@[simp] theorem geom_fb (s : State) (p : Plane) (sub : Bool) (blk : BitVec 4) : (geom s p sub blk).fb = s.mbFb := by
  cases p <;> cases sub <;> rfl

@[simp] theorem geom_plane (s : State) (p : Plane) (sub : Bool) (blk : BitVec 4) :
    (geom s p sub blk).plane = p := by
  cases p <;> cases sub <;> rfl

/-- A block starts at a multiple of its size (R53, R55). -/
theorem geom_aligned (s : State) (p : Plane) (sub : Bool) (blk : BitVec 4) :
    (geom s p sub blk).size * (geom s p sub blk).tileX = (geom s p sub blk).x0 ∧
      (geom s p sub blk).size * (geom s p sub blk).tileY = (geom s p sub blk).y0 := by
  cases p <;> cases sub <;> simp only [geom, Block.tileX, Block.tileY] <;> omega

/-- A block that a well-formed command names lies in its macroblock (R116). -/
theorem geom_in_macroblock (s : State) (p : Plane) (sub : Bool) (blk : BitVec 4)
    (h : sub = false ∨ interBlkOk p sub blk = true) :
    mbSize p * s.mbX.toNat ≤ (geom s p sub blk).x0 ∧
      (geom s p sub blk).x0 + (geom s p sub blk).size ≤ mbSize p * s.mbX.toNat + mbSize p ∧
      mbSize p * s.mbY.toNat ≤ (geom s p sub blk).y0 ∧
      (geom s p sub blk).y0 + (geom s p sub blk).size ≤ mbSize p * s.mbY.toNat + mbSize p := by
  have := blk.isLt
  cases p <;> cases sub <;> simp only [geom, mbSize] <;> simp [interBlkOk] at h <;> omega

/-- In a state with a context in the grid, every cell of such a block is addressable (R51). -/
theorem geom_addressable {s : State} (p : Plane) (sub : Bool) (blk : BitVec 4)
    (h : sub = false ∨ interBlkOk p sub blk = true) (hv : (s.slot s.mbFb).valid = true)
    (hx : s.mbX.toNat < (s.slot s.mbFb).mbW) (hy : s.mbY.toNat < (s.slot s.mbFb).mbH) {c r : Nat}
    (hc : c < (geom s p sub blk).size) (hr : r < (geom s p sub blk).size) :
    s.addressable ((geom s p sub blk).addr c r) = true := by
  have hg := geom_in_macroblock s p sub blk h
  have hsx : mbSize p * s.mbX.toNat + mbSize p ≤ mbSize p * (s.slot s.mbFb).mbW := by
    rw [← Nat.mul_succ]; exact Nat.mul_le_mul_left _ hx
  have hsy : mbSize p * s.mbY.toNat + mbSize p ≤ mbSize p * (s.slot s.mbFb).mbH := by
    rw [← Nat.mul_succ]; exact Nat.mul_le_mul_left _ hy
  simp only [addressable_iff, Block.addr, geom_fb, geom_plane, hv, FbSlot.planeW, FbSlot.planeH, true_and]
  omega

/-- The above-right tile exists below the top edge and left of the right edge (R131). -/
theorem arPresent_iff (s : State) (b : Block) (tx ty : Nat) :
    arPresent s b tx ty = true ↔ 0 < ty ∧ tx + 1 < gridW s b := by
  rw [arPresent, Bool.and_eq_true, decide_eq_true_iff, decide_eq_true_iff]

/-- A block's edge divides its macroblock's (R53). -/
theorem geom_size_dvd (s : State) (p : Plane) (sub : Bool) (blk : BitVec 4) : (geom s p sub blk).size ∣ mbSize p := by
  cases p <;> cases sub <;> simp [geom, mbSize]

/-! ### What geometry, the mux and a reference read depend on -/

/-- `geom` depends on the context registers alone. -/
theorem geom_congr {s t : State} (h : sameContext s t) (p : Plane) (sub : Bool) (blk : BitVec 4) :
    geom t p sub blk = geom s p sub blk := by
  obtain ⟨-, -, h2, h3, h4⟩ := h
  cases p <;> cases sub <;> simp [geom, h2, h3, h4]

/-- A read depends on the cell and on the count of draws. -/
theorem sread_congr {s t : State} {a : SampleAddr} (hd : t.draws = s.draws) (ha : t.cell a = s.cell a) (j : Nat) :
    t.sread j a = s.sread j a := by
  simp [State.sread, hd, ha]

/-- The mux reads the plane of the block, in the block's slot, and nothing else (R130 to R135). -/
theorem mux_congr {s t : State} {b : Block} (hc : sameContext s t) (hd : t.draws = s.draws)
    (ha : sameCells (fun a => a.fb = b.fb ∧ a.plane = b.plane) s t) (fix : Bool) : mux t b fix = mux s b fix := by
  have e : ∀ j x y, t.sread j ⟨b.fb, b.plane, x, y⟩ = s.sread j ⟨b.fb, b.plane, x, y⟩ :=
    fun j x y => sread_congr hd (ha _ ⟨rfl, rfl⟩) j
  have e1 : regionTile t b fix = regionTile s b fix := by simp [regionTile, hc.2.2.2.1, hc.2.2.2.2]
  have e2 : ∀ tx ty, arPresent t b tx ty = arPresent s b tx ty := fun _ _ => by
    simp only [arPresent, gridW, slot_congr hc.1]; rfl
  have e3 : muxAboveRow t b = muxAboveRow s b := funext fun _ => by simp only [muxAboveRow, e]
  have e4 : muxLeftColumn t b = muxLeftColumn s b := funext fun _ => by simp only [muxLeftColumn, e]
  have e5 : ∀ tx ty, muxAr t b tx ty = muxAr s b tx ty := fun _ _ => funext fun _ => by simp only [muxAr, e]
  simp only [mux, e1, e2, e3, e4, e5, muxAboveLeft, muxBr, e]

/-- A reference read is a read of the reference plane, at a clamped position (R205). -/
theorem refRead_congr {s t : State} {ref : Slot} {p : Plane} (hf : t.fb = s.fb) (hd : t.draws = s.draws)
    (ha : sameCells (fun a => a.fb = ref ∧ a.plane = p) s t) (j : Nat) (x y : Int) :
    refRead t ref p j x y = refRead s ref p j x y := by
  simp only [refRead, slot_congr hf]
  exact sread_congr hd (ha _ ⟨rfl, rfl⟩) j

end Sys2Proof.Machine
end

