-- ==== Sys2Proof/Laws/Exec.lean ====
section
/-! SUPPORT. What each meaning can do, said once: every command answers a next state, and that state is one of the cases
its rule lists. -/

namespace Sys2Proof.Machine

/-- INTRA_MB (R150): a LogicFault without a context, the predicted block with one. -/
theorem intraMb_cases (w : CommandWord) (p : Plane) (rule : Neighbours → Nat → Nat → Sample) (s : State) :
    (s.mbValid = false ∧ intraMb w p rule s = .next (raiseLogicFault .noMbContext w s)) ∨
    (s.mbValid = true ∧ intraMb w p rule s =
      .next (predictBlock (geom s p false 0) (rule (mux s (geom s p false 0) false))
        (intraDraws (geom s p false 0).size) s)) := by
  cases h : s.mbValid <;> simp [intraMb, h]

/-- INTRA_B (R170): a LogicFault without a context, the predicted block with one. -/
theorem intraB_cases (w : CommandWord) (blk : BitVec 4) (rule : Neighbours → Nat → Nat → Sample) (s : State) :
    (s.mbValid = false ∧ intraB w blk rule s = .next (raiseLogicFault .noMbContext w s)) ∨
    (s.mbValid = true ∧ intraB w blk rule s =
      .next (predictBlock (geom s .y true blk) (rule (mux s (geom s .y true blk) (fixApplies blk)))
        (intraDraws (geom s .y true blk).size) s)) := by
  cases h : s.mbValid <;> simp [intraB, h]

/-- INTER (R200, R201): three LogicFaults in order, then the predicted block. -/
theorem execInter_cases (ref : Slot) (p : Plane) (sub : Bool) (blk : BitVec 4) (mvx mvy : BitVec 16) (s : State) :
    (s.mbValid = false ∧ execInter ref p sub blk mvx mvy s =
      .next (raiseLogicFault .noMbContext (encode (.inter ref p sub blk mvx mvy)) s)) ∨
    (s.mbValid = true ∧ (s.slot ref).valid = false ∧ execInter ref p sub blk mvx mvy s =
      .next (raiseLogicFault .fbNotConfigured (encode (.inter ref p sub blk mvx mvy)) s)) ∨
    (s.mbValid = true ∧ (s.slot ref).valid = true ∧ ref = s.mbFb ∧ execInter ref p sub blk mvx mvy s =
      .next (raiseLogicFault .refIsCurrent (encode (.inter ref p sub blk mvx mvy)) s)) ∨
    (s.mbValid = true ∧ (s.slot ref).valid = true ∧ ref ≠ s.mbFb ∧ execInter ref p sub blk mvx mvy s =
      .next (predictBlock (geom s p sub blk) (predInter s ⟨geom s p sub blk, ref, mvx, mvy⟩)
        (interDraws ⟨geom s p sub blk, ref, mvx, mvy⟩) s)) := by
  cases h : s.mbValid
  · simp [execInter, h]
  · cases h' : (s.slot ref).valid
    · simp [execInter, h, h']
    · by_cases hr : ref = s.mbFb
      · subst hr; simp [execInter, h, h']
      · simp [execInter, h, h', hr]

/-- CFG_RASTER (R112): the parity error, the zero error, or the new raster. -/
theorem execCfgRaster_cases (f : Slot) (dw dh : BitVec 14) (s : State) :
    ((dw.toNat % 2 = 1 ∨ dh.toNat % 2 = 1) ∧
      execCfgRaster f dw dh s = .next (raiseUnsupported .oddDimension (endRaster f s))) ∨
    (dw.toNat % 2 = 0 ∧ dh.toNat % 2 = 0 ∧ (dw.toNat = 0 ∨ dh.toNat = 0) ∧
      execCfgRaster f dw dh s = .next (raiseUnsupported .zeroDimension (endRaster f s))) ∨
    (dw.toNat % 2 = 0 ∧ dh.toNat % 2 = 0 ∧ dw.toNat ≠ 0 ∧ dh.toNat ≠ 0 ∧
      execCfgRaster f dw dh s = .next (beginRaster f dw dh (endRaster f s))) := by
  unfold execCfgRaster
  split
  · rename_i h; exact .inl ⟨h, rfl⟩
  · split
    · rename_i h h'; exact .inr (.inl ⟨by omega, by omega, h', rfl⟩)
    · rename_i h h'; exact .inr (.inr ⟨by omega, by omega, by omega, by omega, rfl⟩)

/-- BEGIN_MB (R114): two LogicFaults in order, then the context. -/
theorem execBeginMb_cases (f : Slot) (x y : BitVec 10) (s : State) :
    ((s.slot f).valid = false ∧
      execBeginMb f x y s = .next (raiseLogicFault .fbNotConfigured (encode (.beginMb f x y)) s)) ∨
    ((s.slot f).valid = true ∧ ((s.slot f).mbW ≤ x.toNat ∨ (s.slot f).mbH ≤ y.toNat) ∧
      execBeginMb f x y s = .next (raiseLogicFault .mbOutOfRange (encode (.beginMb f x y)) s)) ∨
    ((s.slot f).valid = true ∧ x.toNat < (s.slot f).mbW ∧ y.toNat < (s.slot f).mbH ∧
      execBeginMb f x y s = .next (setContext f x y s)) := by
  unfold execBeginMb
  split
  · rename_i h; exact .inl ⟨h, rfl⟩
  · rename_i h
    split
    · rename_i h'; exact .inr (.inl ⟨by simpa using h, h', rfl⟩)
    · rename_i h'; exact .inr (.inr ⟨by simpa using h, by omega, by omega, rfl⟩)

/-- Everything a command can do, guards included for what later proofs need: it enters a LogicFault, ends a raster,
begins one, sets a context, or predicts a block of the current macroblock. -/
theorem exec_cases (i : Instr) (s : State) :
    (∃ k, exec i s = .next (raiseLogicFault k (encode i) s)) ∨
    (∃ f dw dh e, i = .cfgRaster f dw dh ∧ exec i s = .next (raiseUnsupported e (endRaster f s))) ∨
    (∃ f dw dh, i = .cfgRaster f dw dh ∧ dw.toNat % 2 = 0 ∧ dh.toNat % 2 = 0 ∧ dw.toNat ≠ 0 ∧ dh.toNat ≠ 0 ∧
      exec i s = .next (beginRaster f dw dh (endRaster f s))) ∨
    (∃ f x y, i = .beginMb f x y ∧ (s.slot f).valid = true ∧ x.toNat < (s.slot f).mbW ∧
      y.toNat < (s.slot f).mbH ∧ exec i s = .next (setContext f x y s)) ∨
    (∃ b pred n, predictedBlock i s = some b ∧ s.mbValid = true ∧
      exec i s = .next (predictBlock b pred n s)) := by
  have imb : ∀ p rule, exec i s = intraMb (encode i) p rule s → predictedBlock i s = some (geom s p false 0) →
      (∃ k, exec i s = .next (raiseLogicFault k (encode i) s)) ∨
      (∃ b pred n, predictedBlock i s = some b ∧ s.mbValid = true ∧ exec i s = .next (predictBlock b pred n s)) :=
    fun p rule he hb => (intraMb_cases (encode i) p rule s).imp (fun h => ⟨_, he.trans h.2⟩)
      (fun h => ⟨_, _, _, hb, h.1, he.trans h.2⟩)
  have ib : ∀ blk rule, exec i s = intraB (encode i) blk rule s → predictedBlock i s = some (geom s .y true blk) →
      (∃ k, exec i s = .next (raiseLogicFault k (encode i) s)) ∨
      (∃ b pred n, predictedBlock i s = some b ∧ s.mbValid = true ∧ exec i s = .next (predictBlock b pred n s)) :=
    fun blk rule he hb => (intraB_cases (encode i) blk rule s).imp (fun h => ⟨_, he.trans h.2⟩)
      (fun h => ⟨_, _, _, hb, h.1, he.trans h.2⟩)
  cases i with
  | cfgRaster f dw dh =>
    rcases execCfgRaster_cases f dw dh s with ⟨-, h⟩ | ⟨-, -, -, h⟩ | ⟨h1, h2, h3, h4, h⟩
    · exact .inr (.inl ⟨f, dw, dh, _, rfl, h⟩)
    · exact .inr (.inl ⟨f, dw, dh, _, rfl, h⟩)
    · exact .inr (.inr (.inl ⟨f, dw, dh, rfl, h1, h2, h3, h4, h⟩))
  | beginMb f x y =>
    rcases execBeginMb_cases f x y s with ⟨-, h⟩ | ⟨-, -, h⟩ | ⟨h1, h2, h3, h⟩
    · exact .inl ⟨_, h⟩
    · exact .inl ⟨_, h⟩
    · exact .inr (.inr (.inr (.inl ⟨f, x, y, rfl, h1, h2, h3, h⟩)))
  | intraMbDc p => exact (imb p _ rfl rfl).imp_right fun h => .inr (.inr (.inr h))
  | intraMbV p => exact (imb p _ rfl rfl).imp_right fun h => .inr (.inr (.inr h))
  | intraMbH p => exact (imb p _ rfl rfl).imp_right fun h => .inr (.inr (.inr h))
  | intraMbTm p => exact (imb p _ rfl rfl).imp_right fun h => .inr (.inr (.inr h))
  | intraBDc blk => exact (ib blk _ rfl rfl).imp_right fun h => .inr (.inr (.inr h))
  | intraBTm blk => exact (ib blk _ rfl rfl).imp_right fun h => .inr (.inr (.inr h))
  | intraBVe blk => exact (ib blk _ rfl rfl).imp_right fun h => .inr (.inr (.inr h))
  | intraBHe blk => exact (ib blk _ rfl rfl).imp_right fun h => .inr (.inr (.inr h))
  | intraBLd blk => exact (ib blk _ rfl rfl).imp_right fun h => .inr (.inr (.inr h))
  | intraBRd blk => exact (ib blk _ rfl rfl).imp_right fun h => .inr (.inr (.inr h))
  | intraBVr blk => exact (ib blk _ rfl rfl).imp_right fun h => .inr (.inr (.inr h))
  | intraBVl blk => exact (ib blk _ rfl rfl).imp_right fun h => .inr (.inr (.inr h))
  | intraBHd blk => exact (ib blk _ rfl rfl).imp_right fun h => .inr (.inr (.inr h))
  | intraBHu blk => exact (ib blk _ rfl rfl).imp_right fun h => .inr (.inr (.inr h))
  | inter ref p sub blk mvx mvy =>
    rcases execInter_cases ref p sub blk mvx mvy s with ⟨-, h⟩ | ⟨-, -, h⟩ | ⟨-, -, -, h⟩ | ⟨hv, -, -, h⟩
    · exact .inl ⟨_, h⟩
    · exact .inl ⟨_, h⟩
    · exact .inl ⟨_, h⟩
    · exact .inr (.inr (.inr (.inr ⟨_, _, _, rfl, hv, h⟩)))

/-- A command that takes the fault entry of R236 enters the LogicFault of that code, and has no other effect. -/
theorem faultsWith_of_raise {i : Instr} {s : State} {k : LogicFault}
    (h : exec i s = .next (raiseLogicFault k (encode i) s)) : faultsWith i s (faultCodeOf k) :=
  ⟨_, h, rfl, rfl, rfl, rfl, ⟨rfl, rfl, rfl, rfl, rfl⟩, rfl, rfl, ⟨rfl, rfl, rfl⟩, rfl⟩

/-- Every command answers a next state: a LogicFault is one (R236), and so is an UnsupportedInput (R231). -/
theorem exec_next (i : Instr) (s : State) : ∃ t, exec i s = .next t := by
  rcases exec_cases i s with ⟨k, h⟩ | ⟨f, dw, dh, e, -, h⟩ | ⟨f, dw, dh, -, -, -, -, -, h⟩ | ⟨f, x, y, -, -, -, -, h⟩ |
    ⟨b, pred, n, -, -, h⟩ <;> exact ⟨_, h⟩

end Sys2Proof.Machine
end

