-- ==== Sys2Proof/Laws/PerInstr.lean ====
section
/-! SUPPORT. For every command: its word matches its row of spec/opcode_table.json (30_encoding.md R96: a row matches
when `(w & mask) == match`). -/

namespace Sys2Proof.Laws.OpcodeRow

/-- The `mask` and `match` of a command's row. -/
def row : Instr → CommandWord × CommandWord
  | .cfgRaster _ _ _ => (0xFCFFFFFFF0000000, 0x1000000000000000)
  | .beginMb _ _ _ => (0xFCFFFFFFFC00FC00, 0x2000000000000000)
  | .intraMbDc _ => (0xFF3FFFFFFFFFFFFF, 0x3000000000000000)
  | .intraMbV _ => (0xFF3FFFFFFFFFFFFF, 0x3000000000000001)
  | .intraMbH _ => (0xFF3FFFFFFFFFFFFF, 0x3000000000000002)
  | .intraMbTm _ => (0xFF3FFFFFFFFFFFFF, 0x3000000000000003)
  | .intraBDc _ => (0xFFF0FFFFFFFFFFFF, 0x4000000000000000)
  | .intraBTm _ => (0xFFF0FFFFFFFFFFFF, 0x4000000000000001)
  | .intraBVe _ => (0xFFF0FFFFFFFFFFFF, 0x4000000000000002)
  | .intraBHe _ => (0xFFF0FFFFFFFFFFFF, 0x4000000000000003)
  | .intraBLd _ => (0xFFF0FFFFFFFFFFFF, 0x4000000000000004)
  | .intraBRd _ => (0xFFF0FFFFFFFFFFFF, 0x4000000000000005)
  | .intraBVr _ => (0xFFF0FFFFFFFFFFFF, 0x4000000000000006)
  | .intraBVl _ => (0xFFF0FFFFFFFFFFFF, 0x4000000000000007)
  | .intraBHd _ => (0xFFF0FFFFFFFFFFFF, 0x4000000000000008)
  | .intraBHu _ => (0xFFF0FFFFFFFFFFFF, 0x4000000000000009)
  | .inter _ _ _ _ _ _ => (0xFC20FFFF00000000, 0x5000000000000000)

/-- The command's word matches its row. -/
def Statement (i : Instr) : Prop := encode i &&& (row i).1 = (row i).2

theorem cfgRaster (fb : Slot) (dw : BitVec 14) (dh : BitVec 14) : Statement (.cfgRaster fb dw dh) := by
  simp only [Statement, row, encode, encodeC]
  ext k hk
  simp only [BitVec.getElem_and, BitVec.getElem_append]
  interval_cases k <;> simp

theorem beginMb (fb : Slot) (mbx : BitVec 10) (mby : BitVec 10) : Statement (.beginMb fb mbx mby) := by
  simp only [Statement, row, encode, encodeM]
  ext k hk
  simp only [BitVec.getElem_and, BitVec.getElem_append]
  interval_cases k <;> simp

theorem intraMbDc (plane : Plane) : Statement (.intraMbDc plane) := by
  simp only [Statement]; cases plane <;> decide

theorem intraMbV (plane : Plane) : Statement (.intraMbV plane) := by
  simp only [Statement]; cases plane <;> decide

theorem intraMbH (plane : Plane) : Statement (.intraMbH plane) := by
  simp only [Statement]; cases plane <;> decide

theorem intraMbTm (plane : Plane) : Statement (.intraMbTm plane) := by
  simp only [Statement]; cases plane <;> decide

theorem intraBDc (blk : BitVec 4) : Statement (.intraBDc blk) := by
  simp only [Statement]; revert blk; decide

theorem intraBTm (blk : BitVec 4) : Statement (.intraBTm blk) := by
  simp only [Statement]; revert blk; decide

theorem intraBVe (blk : BitVec 4) : Statement (.intraBVe blk) := by
  simp only [Statement]; revert blk; decide

theorem intraBHe (blk : BitVec 4) : Statement (.intraBHe blk) := by
  simp only [Statement]; revert blk; decide

theorem intraBLd (blk : BitVec 4) : Statement (.intraBLd blk) := by
  simp only [Statement]; revert blk; decide

theorem intraBRd (blk : BitVec 4) : Statement (.intraBRd blk) := by
  simp only [Statement]; revert blk; decide

theorem intraBVr (blk : BitVec 4) : Statement (.intraBVr blk) := by
  simp only [Statement]; revert blk; decide

theorem intraBVl (blk : BitVec 4) : Statement (.intraBVl blk) := by
  simp only [Statement]; revert blk; decide

theorem intraBHd (blk : BitVec 4) : Statement (.intraBHd blk) := by
  simp only [Statement]; revert blk; decide

theorem intraBHu (blk : BitVec 4) : Statement (.intraBHu blk) := by
  simp only [Statement]; revert blk; decide

theorem inter (ref : Slot) (plane : Plane) (sub : Bool) (blk : BitVec 4) (mvx : BitVec 16) (mvy : BitVec 16) : Statement (.inter ref plane sub blk mvx mvy) := by
  simp only [Statement, row, encode, encodeP]
  ext k hk
  simp only [BitVec.getElem_and, BitVec.getElem_append]
  interval_cases k <;> simp

end Sys2Proof.Laws.OpcodeRow
end

