-- ==== Sys2Proof/Laws/Perform.lean ====
section
/-! SUPPORT. What a step can do around `exec`, said once: the core's turn, the host's access, and the step itself. -/

namespace Sys2Proof.Machine

/-- A command's end is a next state only when its meaning answered one. -/
theorem finish_next {o : Host.Outcome State Fault Refusal} {t : State} (h : finish o = .next t) :
    ∃ u, o = .next u ∧ t = endCommand u := by
  cases o <;> simp [finish] at h
  exact ⟨_, rfl, h.symm⟩

/-- A word that decodes runs its meaning (R95). -/
theorem perform_ok {w : CommandWord} {i : Instr} (h : decode w = .ok i) (s : State) :
    perform w s = finish (exec i (beginCommand s)) := by
  simp [perform, h]

/-- A word that does not decode enters its LogicFault (R236). -/
theorem perform_error {w : CommandWord} {k : LogicFault} (h : decode w = .error k) (s : State) :
    perform w s = .next (endCommand (raiseLogicFault k w (beginCommand s))) := by
  simp [perform, h, finish]

/-- Everything the core's turn can do: nothing, a fault of the decoder, or a command. -/
theorem coreTurn_cases {s t : State} (h : coreTurn s = .next t) :
    t = s ∨
    ∃ w rest, s.faulted = false ∧ s.port = w :: rest ∧
      ((∃ k, decode w = .error k ∧ t = endCommand (raiseLogicFault k w (beginCommand { s with port := rest }))) ∨
        ∃ i u, decode w = .ok i ∧ exec i (beginCommand { s with port := rest }) = .next u ∧ t = endCommand u) := by
  unfold coreTurn at h
  split at h
  · cases h; exact .inl rfl
  · rename_i hf
    split at h
    · cases h; exact .inl rfl
    · rename_i w rest hp
      refine .inr ⟨w, rest, by simpa using hf, hp, ?_⟩
      cases hd : decode w with
      | ok i =>
        rw [perform_ok hd] at h
        obtain ⟨u, hu, rfl⟩ := finish_next h
        exact .inr ⟨i, u, rfl, hu, rfl⟩
      | error k =>
        rw [perform_error hd] at h
        cases h
        exact .inl ⟨k, rfl, rfl⟩

/-- A host access that meets the conditions of R60 has its effect. -/
theorem hostAccess_ok {a : SampleAddr} {s : State} (hb : s.busy = false) (ha : s.addressable a = true) (ok : State) :
    hostAccess a s ok = .next ok := by
  have hv := ((addressable_iff s a).1 ha).1
  simp [hostAccess, hb, ha, hv]

/-- A host access that answers a next state met the conditions of R60. -/
theorem hostAccess_next {a : SampleAddr} {s ok t : State} (h : hostAccess a s ok = .next t) :
    s.busy = false ∧ s.addressable a = true ∧ t = ok := by
  unfold hostAccess at h
  split at h
  · cases h
  · split at h
    · cases h
    · split at h
      · cases h
      · rename_i h1 _ h3
        cases h
        exact ⟨by simpa using h1, by simpa using h3, rfl⟩

/-- A host access that breaks a condition of R60 is refused. -/
theorem hostAccess_refused {a : SampleAddr} {s : State} (h : s.busy = true ∨ s.addressable a = false) (ok : State) :
    ∃ r, hostAccess a s ok = .refused r := by
  cases hr : hostAccess a s ok with
  | next t =>
    obtain ⟨h1, h2, -⟩ := hostAccess_next hr
    simp [h1, h2] at h
  | fault k =>
    unfold hostAccess at hr
    repeat (first | split at hr | cases hr)
  | refused r => exact ⟨r, rfl⟩

/-- Everything a step can do: the core's turn, or an event of the host or of the reset input. -/
theorem step_cases {s t : State} (h : step s = .next t) :
    (s.schedule = [] ∧ s.faulted = false ∧ coreTurn s = .next t) ∨
    ∃ e rest, s.schedule = e :: rest ∧
      ((e = .core ∧ coreTurn { s with schedule := rest } = .next t) ∨
        (∃ w, e = .issue w ∧ t = { s with schedule := rest, port := s.port ++ [w] }) ∨
        (∃ a, e = .hostRead a ∧ s.busy = false ∧ s.addressable a = true ∧
          t = { s with schedule := rest, reply := some (.sample (s.sread 0 a)), draws := s.draws + 1 }) ∨
        (∃ a v, e = .hostWrite a v ∧ s.busy = false ∧ s.addressable a = true ∧
          t = { s.swrite a v with schedule := rest }) ∨
        (∃ o, e = .statusRead o ∧ t = { s with schedule := rest, reply := some (.status (statusBlock s o)) }) ∨
        (∃ o v, e = .statusWrite o v ∧ t = { s with schedule := rest }) ∨
        (e = .resetInput ∧ t = resetEvent { s with schedule := rest })) := by
  simp only [step, stepMachine] at h
  split at h
  · rename_i e rest hs
    refine .inr ⟨e, rest, hs, ?_⟩
    cases e with
    | core => exact .inl ⟨rfl, h⟩
    | issue w => cases h; exact .inr (.inl ⟨w, rfl, rfl⟩)
    | hostRead a =>
      obtain ⟨h1, h2, rfl⟩ := hostAccess_next h
      exact .inr (.inr (.inl ⟨a, rfl, h1, h2, rfl⟩))
    | hostWrite a v =>
      obtain ⟨h1, h2, rfl⟩ := hostAccess_next h
      exact .inr (.inr (.inr (.inl ⟨a, v, rfl, h1, h2, rfl⟩)))
    | statusRead o =>
      cases h
      refine .inr (.inr (.inr (.inr (.inl ⟨o, rfl, ?_⟩))))
      rfl
    | statusWrite o v => cases h; exact .inr (.inr (.inr (.inr (.inr (.inl ⟨o, v, rfl, rfl⟩)))))
    | resetInput => cases h; exact .inr (.inr (.inr (.inr (.inr (.inr ⟨rfl, rfl⟩)))))
  · rename_i hs
    split at h
    · cases h
    · rename_i hf
      exact .inl ⟨hs, by simpa using hf, h⟩

end Sys2Proof.Machine
end

