-- ==== Sys2Proof/Tests/Slice0.lean ====
section
/-! SUPPORT. Tests of the model against 95_test_vectors.md (its Part 1 and the vectors V-… of Part 2), each on one command
or one step, and for every obligation with hypotheses a state and operands that meet them. -/

namespace Sys2Proof.Tests.Slice0

open Sys2Proof Sys2Proof.Machine

/-! ### Helpers -/

/-- A configured slot. -/
def raster (dw dh : Nat) : FbSlot := ⟨true, BitVec.ofNat 14 dw, BitVec.ofNat 14 dh⟩

/-- Slots 0 and 1 configured alike, and the context MB (x, y) of slot 0. -/
def atMb (dw dh x y : Nat) : State :=
  { State.reset with
    fb := ⟨raster dw dh, raster dw dh, FbSlot.reset, FbSlot.reset⟩
    mbValid := true, mbX := BitVec.ofNat 10 x, mbY := BitVec.ofNat 10 y }

/-- Write cells of one plane, given as ((x, y), value). -/
def put (fb : Slot) (p : Plane) (cells : List ((Nat × Nat) × Nat)) (s : State) : State :=
  cells.foldl (fun s q => s.swrite ⟨fb, p, q.1.1, q.1.2⟩ (BitVec.ofNat 8 q.2)) s

/-- The state after a command, or the state before it where the command answers none. -/
def after (i : Instr) (s : State) : State :=
  match exec i s with
  | .next t => t
  | .fault _ => s
  | .refused _ => s

/-- Every command answers a next state, and `after` names it. -/
theorem exec_eq_after (i : Instr) (s : State) : exec i s = .next (after i s) := by
  obtain ⟨t, h⟩ := exec_next i s
  simp [after, h]

/-- The state after a step, or the state before it where the step answers none. -/
def afterStep (s : State) : State :=
  match step s with
  | .next t => t
  | .fault _ => s
  | .refused _ => s

/-- The step is refused for the reason given. -/
def refusedWith (r : Refusal) (s : State) : Bool :=
  match step s with
  | .next _ => false
  | .fault _ => false
  | .refused r' => r' = r

/-- The step answers a next state. -/
def goesOn (s : State) : Bool :=
  match step s with
  | .next _ => true
  | .fault _ => false
  | .refused _ => false

/-- The 4×4 cells from (x0, y0), row by row. -/
def grid (p : Plane) (x0 y0 : Nat) (s : State) : List (List (Option Sample)) :=
  (List.range 4).map fun r => (List.range 4).map fun c => s.cell ⟨0, p, x0 + c, y0 + r⟩

/-- The four corners of the S×S block from (x0, y0), in the order of V-MB. -/
def corners (p : Plane) (size x0 y0 : Nat) (s : State) : List (Option Sample) :=
  [s.cell ⟨0, p, x0, y0⟩, s.cell ⟨0, p, x0 + size - 1, y0⟩, s.cell ⟨0, p, x0, y0 + size - 1⟩,
    s.cell ⟨0, p, x0 + size - 1, y0 + size - 1⟩]

/-- The neighbourhood of V-B-STD around the sub-block (1, 1) of MB (0, 0), which lies at (4, 4). -/
def standard : State :=
  put 0 .y
    [((3, 3), 50), ((4, 3), 10), ((5, 3), 20), ((6, 3), 30), ((7, 3), 40), ((8, 3), 50), ((9, 3), 60), ((10, 3), 70),
      ((11, 3), 80), ((3, 4), 90), ((3, 5), 100), ((3, 6), 110), ((3, 7), 120)] (atMb 48 32 0 0)

/-- The luma contents Y(x, y) = x + 3y of 2.3 at the positions given. -/
def luma (at_ : List (Nat × Nat)) (s : State) : State := put 0 .y (at_.map fun q => (q, q.1 + 3 * q.2)) s

/-- The neighbours of the U block of MB (x, y) on the raster of 2.3, U(x, y) = 200 − x − 2y, present ones only. -/
def chroma (x y : Nat) : State :=
  let row := (List.range 8).map fun i => (8 * x + i, 8 * y - 1)
  let col := (List.range 8).map fun i => (8 * x - 1, 8 * y + i)
  let cells := (if y = 0 then [] else row) ++ (if x = 0 then [] else col) ++
    (if x = 0 ∨ y = 0 then [] else [(8 * x - 1, 8 * y - 1)])
  put 0 .u (cells.map fun q => (q, 200 - q.1 - 2 * q.2)) (atMb 34 18 x y)

/-- The reference of V-INT: R(x, y) = x + 16y in slot 1, 16×16, at the columns and rows given. -/
def reference (columns rows : List Nat) : State :=
  put 1 .y (rows.flatMap fun y => columns.map fun x => ((x, y), x + 16 * y)) (atMb 16 16 0 0)

/-! ### Well-formedness: each check refuses an ill-formed term -/

theorem test_wellFormed_mb_block_has_blk_0 : (Instr.inter 1 .y false 1 0 0).wellFormed = false := by decide
theorem test_wellFormed_chroma_u_block : (Instr.inter 1 .u true 4 0 0).wellFormed = false := by decide
theorem test_wellFormed_chroma_v_block : (Instr.inter 1 .v true 15 0 0).wellFormed = false := by decide
theorem test_wellFormed_accepts :
    (Instr.inter 1 .y true 15 0 0).wellFormed = true ∧ (Instr.inter 1 .v true 3 0 0).wellFormed = true ∧
      (Instr.inter 1 .u false 0 0 0).wellFormed = true := by decide

/-! ### Decoding (V-ENC-1, V-ENC-2): the words are the spec's -/

theorem test_decode_cfgRaster : decode 0x130000000FFFBFFE = .ok (.cfgRaster 3 16382 16382) := by decide
theorem test_decode_beginMb : decode 0x2200000003FF03FF = .ok (.beginMb 2 1023 1023) := by decide
theorem test_decode_intraMbDc : decode 0x3000000000000000 = .ok (.intraMbDc .y) := by decide
theorem test_decode_intraMbV : decode 0x3040000000000001 = .ok (.intraMbV .u) := by decide
theorem test_decode_intraMbH : decode 0x3080000000000002 = .ok (.intraMbH .v) := by decide
theorem test_decode_intraMbTm : decode 0x3040000000000003 = .ok (.intraMbTm .u) := by decide
theorem test_decode_intraBDc : decode 0x4000000000000000 = .ok (.intraBDc 0) := by decide
theorem test_decode_intraBTm : decode 0x4001000000000001 = .ok (.intraBTm 1) := by decide
theorem test_decode_intraBVe : decode 0x4002000000000002 = .ok (.intraBVe 2) := by decide
theorem test_decode_intraBHe : decode 0x4003000000000003 = .ok (.intraBHe 3) := by decide
theorem test_decode_intraBLd : decode 0x4004000000000004 = .ok (.intraBLd 4) := by decide
theorem test_decode_intraBRd : decode 0x4005000000000005 = .ok (.intraBRd 5) := by decide
theorem test_decode_intraBVr : decode 0x4006000000000006 = .ok (.intraBVr 6) := by decide
theorem test_decode_intraBVl : decode 0x4007000000000007 = .ok (.intraBVl 7) := by decide
theorem test_decode_intraBHd : decode 0x4008000000000008 = .ok (.intraBHd 8) := by decide
theorem test_decode_intraBHu : decode 0x400F000000000009 = .ok (.intraBHu 15) := by decide
theorem test_decode_inter :
    decode 0x531F000080007FFF = .ok (.inter 3 .y true 15 (BitVec.ofInt 16 (-32768)) 32767) := by decide
theorem test_decode_inter_chroma :
    decode 0x52400000FFFFFFFF = .ok (.inter 2 .u false 0 (BitVec.ofInt 16 (-1)) (BitVec.ofInt 16 (-1))) := by decide

theorem test_decode_illegalOpcode :
    decode 0x0000000000000000 = .error .illegalOpcode ∧ decode 0x60C0000000000000 = .error .illegalOpcode ∧
      decode 0xF000000000000000 = .error .illegalOpcode := by decide
theorem test_decode_reservedBits :
    decode 0x1000000010000000 = .error .reservedBits ∧ decode 0x2000000000000400 = .error .reservedBits ∧
      decode 0x3000000000000004 = .error .reservedBits ∧ decode 0x400000000000001A = .error .reservedBits ∧
      decode 0x5120000000000000 = .error .reservedBits := by decide
theorem test_decode_badPlane :
    decode 0x30C0000000000000 = .error .badPlane ∧ decode 0x50C1000000000000 = .error .badPlane := by decide
theorem test_decode_badMode :
    decode 0x400000000000000A = .error .badMode ∧ decode 0x400F00000000000F = .error .badMode := by decide
theorem test_decode_badBlock :
    decode 0x5101000000000000 = .error .badBlock ∧ decode 0x5154000000000000 = .error .badBlock := by decide

theorem test_encode :
    encode (.cfgRaster 1 176 144) = 0x11000000002C0090 ∧ encode (.beginMb 0 3 2) = 0x2000000000030002 ∧
      encode (.intraMbTm .u) = 0x3040000000000003 ∧ encode (.intraBHu 7) = 0x4007000000000009 ∧
      encode (.inter 1 .v true 3 (BitVec.ofInt 16 (-20)) 4) = 0x51930000FFEC0004 := by decide

theorem test_assemble_copy : assembleText "copy y, mb, fb1, 1, 0" = some 0x5100000000080000 := by decide

/-! ### CFG_RASTER and BEGIN_MB (V-CFG, V-CFG-2, V-MB) -/

theorem test_cfgRaster :
    statusBlock (after (.cfgRaster 0 34 18) State.reset) 0x10 = 0x80088012 ∧
      ((after (.cfgRaster 0 34 18) State.reset).slot 0).mbW = 3 ∧
      statusBlock (after (.cfgRaster 0 33 0) State.reset) 0x00 = 0x10 ∧
      statusBlock (after (.cfgRaster 2 0 16) State.reset) 0x00 = 0x20 := by decide
theorem test_cfgRaster_current :
    statusBlock (after (.cfgRaster 0 48 32) (atMb 48 32 1 1)) 0x00 = 0 ∧
      statusBlock (after (.cfgRaster 0 48 32) (atMb 48 32 1 1)) 0x04 = 0x00010001 ∧
      statusBlock (after (.cfgRaster 1 48 32) (atMb 48 32 1 1)) 0x00 = 4 := by decide
theorem test_beginMb :
    statusBlock (after (.beginMb 0 2 1) (atMb 34 18 0 0)) 0x04 = 0x00020001 ∧
      (after (.beginMb 0 2 1) (atMb 34 18 0 0)).faulted = false := by decide
theorem test_beginMb_faults :
    (after (.beginMb 0 3 0) (atMb 34 18 2 1)).faultCode = 9 ∧ (after (.beginMb 0 0 2) (atMb 34 18 2 1)).faultCode = 9 ∧
      (after (.beginMb 2 0 0) (atMb 34 18 2 1)).faultCode = 7 ∧
      statusBlock (after (.beginMb 0 3 0) (atMb 34 18 2 1)) 0x04 = 0x00020001 := by decide

/-! ### The neighbour mux (V-MUX) -/

theorem test_mux_left_edge :
    let s := luma [(0, 15), (1, 15), (2, 15), (3, 15), (4, 15), (5, 15), (6, 15), (7, 15)] (atMb 34 18 0 1)
    let n := mux s (geom s .y true 0) (fixApplies 0)
    n.aboveLeft = 129 ∧ (List.range 8).map (fun i => n.above i) = [45, 46, 47, 48, 49, 50, 51, 52] ∧
      n.left 3 = 129 := by decide +kernel
theorem test_mux_fix_up :
    let s := luma [(32, 15), (33, 15), (34, 15), (35, 15)] (atMb 34 18 1 1)
    let n := mux s (geom s .y true 15) (fixApplies 15)
    (List.range 4).map (fun i => n.above (4 + i : Nat)) = [77, 78, 79, 80] := by decide +kernel
theorem test_mux_right_edge :
    let s := luma [(47, 15)] (atMb 34 18 2 1)
    let n := mux s (geom s .y true 7) (fixApplies 7)
    (List.range 4).map (fun i => n.above (4 + i : Nat)) = [92, 92, 92, 92] := by decide +kernel
theorem test_mux_interior :
    let s := luma [(24, 19), (25, 19), (26, 19), (27, 19), (19, 19), (19, 23)] (atMb 34 18 1 1)
    let n := mux s (geom s .y true 5) (fixApplies 5)
    (List.range 4).map (fun i => n.above (4 + i : Nat)) = [81, 82, 83, 84] ∧ n.east 0 = 88 ∧ n.east 4 = 76 := by
  decide +kernel

/-! ### INTRA_MB (V-MB, on the U plane: S = 8) -/

theorem test_intraMbDc_both :
    corners .u 8 16 8 (after (.intraMbDc .u) (chroma 2 1)) = [some 164, some 164, some 164, some 164] := by
  decide +kernel
theorem test_intraMbDc_left_only :
    corners .u 8 8 0 (after (.intraMbDc .u) (chroma 1 0)) = [some 186, some 186, some 186, some 186] := by
  decide +kernel
theorem test_intraMbV_both :
    corners .u 8 16 8 (after (.intraMbV .u) (chroma 2 1)) = [some 170, some 163, some 170, some 163] := by
  decide +kernel
theorem test_intraMbV_top :
    corners .u 8 8 0 (after (.intraMbV .u) (chroma 1 0)) = [some 127, some 127, some 127, some 127] := by
  decide +kernel
theorem test_intraMbH_both :
    corners .u 8 16 8 (after (.intraMbH .u) (chroma 2 1)) = [some 169, some 169, some 155, some 155] := by
  decide +kernel
theorem test_intraMbH_left_edge :
    corners .u 8 0 8 (after (.intraMbH .u) (chroma 0 1)) = [some 129, some 129, some 129, some 129] := by
  decide +kernel
theorem test_intraMbTm_both :
    corners .u 8 16 8 (after (.intraMbTm .u) (chroma 2 1)) = [some 168, some 161, some 154, some 147] := by
  decide +kernel
theorem test_intraMbTm_left_edge :
    corners .u 8 0 8 (after (.intraMbTm .u) (chroma 0 1)) = [some 186, some 179, some 186, some 179] := by
  decide +kernel

/-! ### INTRA_B (V-B-STD) -/

theorem test_intraBDc : grid .y 4 4 (after (.intraBDc 5) standard) =
    [[some 65, some 65, some 65, some 65], [some 65, some 65, some 65, some 65],
      [some 65, some 65, some 65, some 65], [some 65, some 65, some 65, some 65]] := by decide +kernel
theorem test_intraBTm : grid .y 4 4 (after (.intraBTm 5) standard) =
    [[some 50, some 60, some 70, some 80], [some 60, some 70, some 80, some 90],
      [some 70, some 80, some 90, some 100], [some 80, some 90, some 100, some 110]] := by decide +kernel
theorem test_intraBVe : grid .y 4 4 (after (.intraBVe 5) standard) =
    [[some 23, some 20, some 30, some 40], [some 23, some 20, some 30, some 40],
      [some 23, some 20, some 30, some 40], [some 23, some 20, some 30, some 40]] := by decide +kernel
theorem test_intraBHe : grid .y 4 4 (after (.intraBHe 5) standard) =
    [[some 83, some 83, some 83, some 83], [some 100, some 100, some 100, some 100],
      [some 110, some 110, some 110, some 110], [some 118, some 118, some 118, some 118]] := by decide +kernel
theorem test_intraBLd : grid .y 4 4 (after (.intraBLd 5) standard) =
    [[some 20, some 30, some 40, some 50], [some 30, some 40, some 50, some 60],
      [some 40, some 50, some 60, some 70], [some 50, some 60, some 70, some 78]] := by decide +kernel
theorem test_intraBRd : grid .y 4 4 (after (.intraBRd 5) standard) =
    [[some 50, some 23, some 20, some 30], [some 83, some 50, some 23, some 20],
      [some 100, some 83, some 50, some 23], [some 110, some 100, some 83, some 50]] := by decide +kernel
theorem test_intraBVr : grid .y 4 4 (after (.intraBVr 5) standard) =
    [[some 30, some 15, some 25, some 35], [some 50, some 23, some 20, some 30],
      [some 83, some 30, some 15, some 25], [some 100, some 50, some 23, some 20]] := by decide +kernel
theorem test_intraBVl : grid .y 4 4 (after (.intraBVl 5) standard) =
    [[some 15, some 25, some 35, some 45], [some 20, some 30, some 40, some 50],
      [some 25, some 35, some 45, some 60], [some 30, some 40, some 50, some 70]] := by decide +kernel
theorem test_intraBHd : grid .y 4 4 (after (.intraBHd 5) standard) =
    [[some 70, some 50, some 23, some 20], [some 95, some 83, some 70, some 50],
      [some 105, some 100, some 95, some 83], [some 115, some 110, some 105, some 100]] := by decide +kernel
theorem test_intraBHu : grid .y 4 4 (after (.intraBHu 5) standard) =
    [[some 95, some 100, some 105, some 110], [some 105, some 110, some 115, some 118],
      [some 115, some 118, some 120, some 120], [some 120, some 120, some 120, some 120]] := by decide +kernel

/-- V-TM-5: both clamps. -/
theorem test_intraBTm_clamps :
    let s := put 0 .y [((3, 3), 200), ((4, 3), 255), ((5, 3), 0), ((6, 3), 255), ((7, 3), 0), ((3, 4), 0), ((3, 5), 255),
      ((3, 6), 0), ((3, 7), 255)] (atMb 48 32 0 0)
    grid .y 4 4 (after (.intraBTm 5) s) =
      [[some 55, some 0, some 55, some 0], [some 255, some 55, some 255, some 55],
        [some 55, some 0, some 55, some 0], [some 255, some 55, some 255, some 55]] := by decide +kernel

/-- INV3: B_DC at the top-left of the frame. -/
theorem test_intraBDc_top_left :
    (after (.intraBDc 0) (atMb 48 32 0 0)).cell ⟨0, .y, 3, 3⟩ = some 128 := by decide +kernel

/-! ### INTER (V-MV, V-F, V-INT) -/

theorem test_mv_decomposition :
    mvInt (BitVec.ofInt 16 (-20)) = -3 ∧ mvPhase (BitVec.ofInt 16 (-20)) = 4 ∧ mvInt (BitVec.ofInt 16 (-9)) = -2 ∧
      mvPhase (BitVec.ofInt 16 (-9)) = 7 ∧ mvInt 32767 = 4095 ∧ mvInt (BitVec.ofInt 16 (-32768)) = -4096 := by decide
theorem test_filter_rows :
    (List.range 8).map (fun ph => filterSix ph 0 0 0 255 255 255) = [0, 22, 58, 88, 128, 167, 197, 233] ∧
      (List.range 8).map (fun ph => filterSix ph 255 0 255 0 255 0) = [255, 243, 203, 173, 128, 82, 52, 12] := by
  decide +kernel
theorem test_filter_clamps :
    tapSum 4 0 255 0 0 255 0 = -8160 ∧ filterSix 4 0 255 0 0 255 0 = 0 ∧
      tapSum 4 255 0 255 255 0 255 = 40800 ∧ filterSix 4 255 0 255 255 0 255 = 255 := by decide +kernel
theorem test_inter_both_phases :
    grid .y 4 4 (after (.inter 1 .y true 5 4 4) (reference [2, 3, 4, 5, 6, 7, 8, 9, 10] [2, 3, 4, 5, 6, 7, 8, 9, 10])) =
      [[some 77, some 78, some 79, some 80], [some 93, some 94, some 95, some 96],
        [some 109, some 110, some 111, some 112], [some 125, some 126, some 127, some 128]] := by decide +kernel
theorem test_inter_copy_clamped :
    grid .y 0 0 (after (.inter 1 .y true 0 (BitVec.ofInt 16 (-16)) 0) (reference [0, 1] [0, 1, 2, 3])) =
      [[some 0, some 0, some 0, some 1], [some 16, some 16, some 16, some 17],
        [some 32, some 32, some 32, some 33], [some 48, some 48, some 48, some 49]] := by decide +kernel

/-! ### The step, faults, the host and reset (V-H, V-ENC-2) -/

theorem test_step_runs_placed_command :
    statusBlock (afterStep (State.reset.withFetchWord 64 0x10000000002C0090)) 0x10 = 0x802C0090 ∧
      goesOn (State.reset.withFetchWord 64 0x10000000002C0090) = true := by decide
theorem test_step_fault_entry :
    let t := afterStep (State.reset.withFetchWord 64 0x5100000000000000)
    statusBlock t 0x00 = 0x601 ∧ statusBlock t 0x0C = 0x51000000 ∧ t.port = [] := by decide
theorem test_step_arrival_order :
    (afterStep { atMb 48 32 0 0 with port := [1], schedule := [.issue 2] }).port = [1, 2] := by decide
theorem test_step_stuck :
    step { State.reset with faulted := true, faultCode := 1, port := [0x1000000000040010] } = .fault .coreStuck := rfl
theorem test_host_last_cell :
    afterStep { atMb 48 32 0 0 with schedule := [.hostWrite ⟨0, .y, 47, 31⟩ 9] } =
      { atMb 48 32 0 0 with store := [(cellKey ⟨0, .y, 47, 31⟩, 9)] } := by decide
theorem test_host_out_of_range :
    refusedWith .hostAccessOutOfRange { atMb 48 32 0 0 with schedule := [.hostWrite ⟨0, .y, 48, 0⟩ 9] } = true ∧
      refusedWith .hostAccessOutOfRange { atMb 48 32 0 0 with schedule := [.hostRead ⟨0, .u, 24, 0⟩] } = true ∧
      refusedWith .hostAccessUnconfigured { atMb 48 32 0 0 with schedule := [.hostWrite ⟨2, .y, 0, 0⟩ 9] } = true ∧
      refusedWith .hostAccessWhileBusy { atMb 48 32 0 0 with busy := true, schedule := [.hostRead ⟨0, .y, 0, 0⟩] } =
        true := by decide
theorem test_reset_after_fault :
    afterStep { atMb 48 32 0 0 with
      faulted := true, faultCode := 8, faultCmd := 1, port := [7], schedule := [.resetInput] } = State.reset := by
  decide

/-! ### Witnesses: states and operands that meet the hypotheses of each obligation, at the ends of their ranges -/

theorem witness_AfterResetOnlyCfgRasterCompletes :
    unconfigured State.reset ∧ predictedBlock (.intraBHu 15) State.reset ≠ none ∧
      exec (.cfgRaster 0 16 16) State.reset = .next (after (.cfgRaster 0 16 16) State.reset) := 
  ⟨by decide, by decide, exec_eq_after _ _⟩

/-- The "until" clause: the step of a CFG_RASTER that succeeds leaves the unconfigured states. -/
theorem witness_AfterResetOnlyCfgRasterCompletes_until :
    let s := State.reset.withFetchWord 64 0x130000000FFFBFFE
    unconfigured s ∧ step s = .next (afterStep s) ∧ ¬unconfigured (afterStep s) ∧
      (afterStep s).slot 3 = raster 16382 16382 := ⟨by decide, rfl, by decide, by decide⟩

/-- A faulted core with an event scheduled. -/
def faultedWith (e : Event) : State := { atMb 48 32 0 0 with faulted := true, faultCode := 6, schedule := [e] }

theorem witness_ResetInputIsTheOnlyExitFromAFault :
    (faultedWith .resetInput).faulted = true ∧ goesOn (faultedWith .resetInput) = true ∧
      (afterStep (faultedWith .resetInput)).faulted = false := by decide
theorem witness_StatusReadsHaveNoSideEffect : (0x02 % 4 ≠ 0 ∨ 0x1C < 0x02) ∧ (0x20 % 4 ≠ 0 ∨ 0x1C < 0x20) := by decide

theorem witness_DecoderFollowsItsSteps_illegalOpcode :
    (0x0FFFFFFFFFFFFFFF#64).toNat / 2 ^ 60 = 0 ∧ (0x6000000000000000#64).toNat / 2 ^ 60 = 6 ∧
      (0xF000000000000000#64).toNat / 2 ^ 60 = 15 := by decide
theorem witness_DecoderFollowsItsSteps_reservedBits :
    0x1400000000000000#64 &&& 0x0CFFFFFFF0000000 ≠ 0 ∧ 0x2000000000000400#64 &&& 0x0CFFFFFFFC00FC00 ≠ 0 ∧
      0x3000000000000004#64 &&& 0x0F3FFFFFFFFFFFFC ≠ 0 ∧ 0x4000000000000010#64 &&& 0x0FF0FFFFFFFFFFF0 ≠ 0 ∧
      0x5120000000000000#64 &&& 0x0C20FFFF00000000 ≠ 0 := by decide
theorem witness_DecoderFollowsItsSteps_formatsCM :
    0x130000000FFFFFFF#64 &&& 0x0CFFFFFFF0000000 = 0 ∧ (0x130000000FFFFFFF#64).toNat / 2 ^ 60 = 1 ∧
      0x2300000003FF03FF#64 &&& 0x0CFFFFFFFC00FC00 = 0 ∧ (0x2300000003FF03FF#64).toNat / 2 ^ 60 = 2 := by decide
theorem witness_DecoderFollowsItsSteps_formatI :
    0x30C0000000000000#64 &&& 0x0F3FFFFFFFFFFFFC = 0 ∧ (0x30C0000000000000#64).toNat / 2 ^ 54 % 4 = 3 ∧
      0x3080000000000003#64 &&& 0x0F3FFFFFFFFFFFFC = 0 ∧
      (planeField .v).toNat = (0x3080000000000003#64).toNat / 2 ^ 54 % 4 ∧
      [Instr.intraMbDc, Instr.intraMbV, Instr.intraMbH, Instr.intraMbTm][(0x3080000000000003#64).toNat % 4]? =
        some Instr.intraMbTm := ⟨by decide, by decide, by decide, by decide, rfl⟩
theorem witness_DecoderFollowsItsSteps_formatB :
    0x400F00000000000F#64 &&& 0x0FF0FFFFFFFFFFF0 = 0 ∧ 10 ≤ (0x400000000000000A#64).toNat % 16 ∧
      0x400F000000000009#64 &&& 0x0FF0FFFFFFFFFFF0 = 0 ∧
      [Instr.intraBDc, Instr.intraBTm, Instr.intraBVe, Instr.intraBHe, Instr.intraBLd, Instr.intraBRd, Instr.intraBVr,
        Instr.intraBVl, Instr.intraBHd, Instr.intraBHu][(0x400F000000000009#64).toNat % 16]? = some Instr.intraBHu :=
  ⟨by decide, by decide, by decide, rfl⟩
theorem witness_DecoderFollowsItsSteps_formatP :
    0x50C1000000000000#64 &&& 0x0C20FFFF00000000 = 0 ∧ (0x50C1000000000000#64).toNat / 2 ^ 54 % 4 = 3 ∧
      (0x5101000000000000#64 &&& 0x0C20FFFF00000000 = 0 ∧ (0x5101000000000000#64).toNat / 2 ^ 52 % 2 = 0 ∧
        (0x5101000000000000#64).toNat / 2 ^ 48 % 16 = 1) ∧
      (0x5194000000000000#64 &&& 0x0C20FFFF00000000 = 0 ∧ (0x5194000000000000#64).toNat / 2 ^ 52 % 2 = 1 ∧
        (0x5194000000000000#64).toNat / 2 ^ 54 % 4 = 2 ∧ (0x5194000000000000#64).toNat / 2 ^ 48 % 16 = 4) ∧
      (0x511F000000000000#64 &&& 0x0C20FFFF00000000 = 0 ∧
        (planeField .y).toNat = (0x511F000000000000#64).toNat / 2 ^ 54 % 4) := by decide
theorem witness_DecodeOfEncodeIsTheCommand : (Instr.inter 3 .v true 3 0 0).wellFormed = true := by decide
theorem witness_EncodeOfDecodeIsTheWord : decode 0x5193000000000000 = .ok (.inter 1 .v true 3 0 0) := by decide
theorem witness_CopyIsAnIntegerDisplacement :
    assemble (.copy .v (.sub 3) 1 (-4096) 4095) = some (.inter 1 .v true 3 (BitVec.ofInt 16 (-32768)) 32760) := by decide
theorem witness_CopyIsAnIntegerDisplacement_sub :
    (assemble (.copy .y (.sub 15) 1 4095 (-4096))).isSome = true ∧ assemble (.copy .y (.sub 16) 1 0 0) = none ∧
      assemble (.copy .u (.sub 4) 1 0 0) = none ∧ assemble (.copy .u (.sub 3) 1 4096 0) = none := by decide

/-- A core with one word in its port and its own turn scheduled. -/
def waiting (w : CommandWord) (turns : List Event) : State := { atMb 48 32 0 0 with port := [w], schedule := turns }

theorem witness_StepRunsTheDecodedCommand :
    (waiting 0x3000000000000000 [.core]).faulted = false ∧
      (waiting 0x3000000000000000 [.core]).port = [0x3000000000000000] ∧ (waiting 0x3000000000000000 [.core]).schedule = [.core] ∧
      (waiting 0x3000000000000000 []).schedule = [] ∧ decode 0x3000000000000000 = .ok (.intraMbDc .y) := by decide
theorem witness_PlacedWordIsTheNextCommand :
    State.reset.faulted = false ∧ decodeTableWord 64 0x4000000000000009 = some (.intraBHu 0) := by decide
theorem witness_UndecodableWordEntersItsFault :
    (waiting 0x5101000000000000 [.core]).faulted = false ∧
      (waiting 0x5101000000000000 [.core]).port = [0x5101000000000000] ∧
      (waiting 0x5101000000000000 [.core]).schedule = [.core] ∧ (waiting 0 []).schedule = [] ∧
      (waiting 0 []).port = [0] ∧ decode 0x5101000000000000 = .error .badBlock ∧
      decode 0 = .error .illegalOpcode := by decide
theorem witness_LogicFaultsArePrecise :
    State.reset.faulted = false ∧
      exec (.intraBDc 0) State.reset = .next (after (.intraBDc 0) State.reset) ∧
      (after (.intraBDc 0) State.reset).faulted = true ∧
      exec (.beginMb 0 3 0) (atMb 48 32 0 0) = .next (after (.beginMb 0 3 0) (atMb 48 32 0 0)) ∧
      (after (.beginMb 0 3 0) (atMb 48 32 0 0)).faulted = true := ⟨rfl, exec_eq_after _ _, rfl, exec_eq_after _ _, rfl⟩
theorem witness_FaultedCoreIsStuckUntilReset :
    ({ faultedWith .core with schedule := [] } : State).faulted = true ∧
      (goesOn (faultedWith .core) = true ∧ (faultedWith .core).schedule = [.core]) ∧
      ((faultedWith .core).busy = false ∧ (faultedWith .core).addressable ⟨0, .v, 23, 15⟩ = true) := by decide
theorem witness_IdleStepChangesNothing :
    State.reset.faulted = false ∧ State.reset.port = [] ∧ State.reset.schedule = [] := by decide

theorem witness_CfgRasterConfiguresTheSlot :
    (2#14).toNat % 2 = 0 ∧ (2#14).toNat ≠ 0 ∧ (16382#14).toNat % 2 = 0 ∧ (16382#14).toNat ≠ 0 := by decide
theorem witness_CfgRasterReportsUnsupportedInput :
    (1#14).toNat % 2 = 1 ∧ (16383#14).toNat % 2 = 1 ∧ (0#14).toNat = 0 := by decide
theorem witness_BeginMbSetsTheContext :
    ((atMb 48 32 0 0).slot 0).valid = true ∧ (2#10).toNat < ((atMb 48 32 0 0).slot 0).mbW ∧
      (1#10).toNat < ((atMb 48 32 0 0).slot 0).mbH := by decide
theorem witness_BeginMbChecksItsOperands :
    ((atMb 48 32 0 0).slot 2).valid = false ∧ ((atMb 48 32 0 0).slot 0).valid = true ∧
      ((atMb 48 32 0 0).slot 0).mbW ≤ (3#10).toNat ∧ ((atMb 48 32 0 0).slot 0).mbH ≤ (2#10).toNat := by decide

theorem witness_AboveRightRegionWithoutFixUp :
    (0 < (geom (atMb 48 32 1 1) .y true 3).y0 ∧
        (geom (atMb 48 32 1 1) .y true 3).x0 + 4 < ((atMb 48 32 1 1).slot 0).planeW .y) ∧
      (0 < (geom (atMb 48 32 2 1) .y true 3).y0 ∧
        ((atMb 48 32 2 1).slot 0).planeW .y ≤ (geom (atMb 48 32 2 1) .y true 3).x0 + 4) ∧
      (geom (atMb 48 32 2 0) .y true 3).y0 = 0 := by decide
theorem witness_RightEdgeFixUpSharesTheRegion :
    fixApplies 7 = true ∧ fixApplies 15 = true ∧
      ((atMb 48 32 1 1).mbY ≠ 0 ∧ (atMb 48 32 1 1).mbX.toNat + 1 < ((atMb 48 32 1 1).slot 0).mbW) ∧
      ((atMb 48 32 2 1).mbY ≠ 0 ∧ (atMb 48 32 2 1).mbX.toNat + 1 = ((atMb 48 32 2 1).slot 0).mbW) ∧
      (atMb 48 32 2 0).mbY = 0 := by decide
theorem witness_ProjectionsOfTheNeighbours : (mux standard (geom standard .y true 5) false).size = 4 := by decide
theorem witness_NeighboursLieOutsideTheBlock : fixApplies 11 = true := by decide

/-- A state for the statements about intra commands with a context, and one for that without. -/
theorem witness_intra_context : standard.mbValid = true ∧ State.reset.mbValid = false := by decide
theorem witness_IntraMbDcAveragesThePresentNeighbours :
    (∀ x y, (atMb 48 32 x y).mbValid = true) ∧
      (0 < (geom (atMb 48 32 1 1) .v false 0).y0 ∧ 0 < (geom (atMb 48 32 1 1) .v false 0).x0) ∧
      (0 < (geom (atMb 48 32 0 1) .v false 0).y0 ∧ (geom (atMb 48 32 0 1) .v false 0).x0 = 0) ∧
      ((geom (atMb 48 32 1 0) .v false 0).y0 = 0 ∧ 0 < (geom (atMb 48 32 1 0) .v false 0).x0) ∧
      ((geom (atMb 48 32 0 0) .v false 0).y0 = 0 ∧ (geom (atMb 48 32 0 0) .v false 0).x0 = 0) := ⟨fun _ _ => rfl, by decide⟩
theorem witness_IntraMbVAndHCopyTheirEdge :
    ((atMb 48 32 2 0).mbValid = true ∧ (atMb 48 32 2 0).mbY = 0) ∧
      ((atMb 48 32 0 1).mbValid = true ∧ (atMb 48 32 0 1).mbX = 0) := by decide
theorem witness_IntraMbTmClampsTheGradient :
    (atMb 48 32 0 1).mbValid = true ∧ (atMb 48 32 0 1).mbX = 0 ∧ 0 < (geom (atMb 48 32 0 1) .y false 0).y0 := by decide
theorem witness_IntraBDcUsesTheSyntheticBorders :
    (atMb 48 32 0 0).mbValid = true ∧ (geom (atMb 48 32 0 0) .y true 0).x0 = 0 ∧
      (geom (atMb 48 32 0 0) .y true 0).y0 = 0 := by decide
theorem witness_IntraBTmClampsTheGradient :
    let s := put 0 .y [((3, 3), 9), ((4, 3), 9), ((3, 4), 9)] (atMb 48 32 0 0)
    let n := mux s (geom s .y true 5) (fixApplies 5)
    s.mbValid = true ∧ n.leftColumn 0 = 9 ∧ n.aboveRow 0 = 9 ∧ n.aboveLeft = 9 := by decide +kernel

theorem witness_InterChecksInOrder :
    State.reset.mbValid = false ∧ (standard.mbValid = true ∧ (standard.slot 3).valid = false) ∧
      (standard.mbValid = true ∧ (standard.slot 0).valid = true ∧ (0 : Slot) = standard.mbFb) ∧
      interReady 1 standard := by decide
theorem witness_PhaseZeroIsTheIdentity : mvPhase (BitVec.ofInt 16 (-32768)) = 0 ∧ mvPhase 32760 = 0 := by decide
theorem witness_FilterSumsStayInRange : 0 < 8 ∧ 7 < 8 := by decide
theorem witness_InterCopiesTheReferenceRectangle :
    interReady 1 (atMb 16 16 0 0) ∧ mvPhase (BitVec.ofInt 16 (-16)) = 0 ∧ mvPhase 32760 = 0 := by decide
theorem witness_InterFiltersHorizontallyThenVertically :
    interReady 1 (atMb 16 16 0 0) ∧ mvPhase (BitVec.ofInt 16 (-1)) ≠ 0 ∧ mvPhase 4 ≠ 0 := by decide
theorem witness_ZeroVectorCopiesInPlace :
    let s := reference [15] [15]
    interReady 1 s ∧ (geom s .y false 0).x0 + 16 ≤ (s.slot 1).planeW .y ∧
      (geom s .y false 0).y0 + 16 ≤ (s.slot 1).planeH .y ∧ s.cell ⟨1, .y, 15, 15⟩ = some 255 := by decide +kernel

/-- The invariant of a state with two rasters, a context in the grid and no written cell. -/
theorem stateInv_atMb {x y : Nat} (hx : x < 3) (hy : y < 2) : StateInv (atMb 48 32 x y) where
  slotsLegal := (by decide : ∀ f, ((atMb 48 32 0 0).slot f).legal)
  contextInGrid := by revert y; revert x; decide
  faultRegisters := ⟨rfl, rfl⟩
  cfgErrLegal := Nat.zero_le 2
  idle := rfl
  storeWf := List.Pairwise.nil
  storeInRange := by intro k v h; cases h
theorem witness_ReferenceReadsStayInThePlane :
    StateInv (atMb 48 32 2 1) ∧ ((atMb 48 32 2 1).slot 1).valid = true :=
  ⟨stateInv_atMb (by decide) (by decide), by decide⟩

/-- Every clause at its boundary: the above-right row and the fix-up in MB (1, 1), the one sample at the right edge in
MB (2, 1), a chroma macroblock-level block. -/
theorem witness_NeighbourReadsStayInThePlane :
    (StateInv (atMb 48 32 1 1) ∧ (atMb 48 32 1 1).mbValid = true ∧ interBlkOk .y true 15 = true ∧ fixApplies 15 = true ∧
        3 < (geom (atMb 48 32 1 1) .y true 15).size ∧
        (alPresent (geom (atMb 48 32 1 1) .y true 15) = true ∧ arPresent (atMb 48 32 1 1) (geom (atMb 48 32 1 1) .y true 15)
          (regionTile (atMb 48 32 1 1) (geom (atMb 48 32 1 1) .y true 15) true).1
          (regionTile (atMb 48 32 1 1) (geom (atMb 48 32 1 1) .y true 15) true).2 = true)) ∧
      (StateInv (atMb 48 32 2 1) ∧ 0 < (regionTile (atMb 48 32 2 1) (geom (atMb 48 32 2 1) .y true 7) true).2) ∧
      (7 < (geom (atMb 48 32 2 1) .v false 0).size ∧ aPresent (geom (atMb 48 32 2 1) .v false 0) = true ∧
        lPresent (geom (atMb 48 32 2 1) .v false 0) = true) :=
  ⟨⟨stateInv_atMb (by decide) (by decide), by decide⟩, ⟨stateInv_atMb (by decide) (by decide), by decide⟩, by decide⟩

/-- Two states that agree on the addressable cells and differ in one that is not. -/
theorem witness_NeighbourReadsStayInThePlane_agree :
    let s := atMb 48 32 1 1
    let s' := s.swrite ⟨2, .y, 0, 0⟩ 1
    sameContext s s' ∧ s'.draws = s.draws ∧ sameCells (fun a => s.addressable a = true) s s' ∧ s' ≠ s := by
  refine ⟨by decide, rfl, fun a ha => ?_, by decide⟩
  refine cell_swrite_ne _ _ fun h => ?_
  rw [h] at ha
  exact absurd ha (by decide)

theorem witness_InterReadsOnlyTheReferencePlane :
    let s := reference [0] [0]
    let s' := (reference [0] [0]).swrite ⟨2, .u, 0, 0⟩ 1
    interReady 1 s ∧ sameContext s s' ∧ s'.draws = s.draws ∧ sameCells (fun a => a.fb = 1 ∧ a.plane = .y) s s' ∧
      exec (.inter 1 .y true 0 0 0) s = .next (after (.inter 1 .y true 0 0 0) s) ∧
      exec (.inter 1 .y true 0 0 0) s' = .next (after (.inter 1 .y true 0 0 0) s') ∧
      (geom s .y true 0).contains ⟨0, .y, 3, 3⟩ = true := by
  refine ⟨by decide, by decide, rfl, fun a ha => ?_, exec_eq_after _ _, exec_eq_after _ _, by decide⟩
  refine cell_swrite_ne _ _ fun h => ?_
  rw [h] at ha
  exact absurd ha.1 (by decide)
theorem witness_IntraReadsOnlyItsOwnPlane :
    let s' := standard.swrite ⟨1, .y, 0, 0⟩ 1
    predictedBlock (.intraBHu 5) standard = some (geom standard .y true 5) ∧ standard.mbValid = true ∧
      sameContext standard s' ∧ s'.draws = standard.draws ∧
      sameCells (fun a => a.fb = 0 ∧ a.plane = .y) standard s' ∧
      exec (.intraBHu 5) standard = .next (after (.intraBHu 5) standard) ∧
      exec (.intraBHu 5) s' = .next (after (.intraBHu 5) s') ∧
      (geom standard .y true 5).contains ⟨0, .y, 4, 4⟩ = true := by
  refine ⟨rfl, rfl, by decide, State.swrite_draws _ _ _, fun a ha => ?_, exec_eq_after _ _, exec_eq_after _ _, by decide⟩
  refine cell_swrite_ne _ _ fun h => ?_
  rw [h] at ha
  exact absurd ha.1 (by decide)
theorem witness_OnlyTheCurrentRasterIsWritten :
    exec (.intraBHu 5) standard = .next (after (.intraBHu 5) standard) ∧
      (after (.intraBHu 5) standard).cell ⟨0, .y, 4, 4⟩ ≠ standard.cell ⟨0, .y, 4, 4⟩ :=
  ⟨exec_eq_after _ _, by decide +kernel⟩
theorem witness_HostStepsAccessOneCell :
    (standard.busy = false ∧ standard.addressable ⟨1, .v, 23, 15⟩ = true ∧
        standard.cell ⟨0, .y, 3, 3⟩ = some 50) ∧
      ({ standard with busy := true } : State).busy = true ∧ standard.addressable ⟨1, .v, 24, 0⟩ = false := by
  decide +kernel
theorem witness_DrawsAreFresh :
    (standard.busy = false ∧ standard.addressable ⟨1, .y, 0, 0⟩ = true ∧ standard.cell ⟨1, .y, 0, 0⟩ = none) ∧
      goesOn State.reset = true ∧
      (standard.mbValid = true ∧ exec (.intraBHu 5) standard = .next (after (.intraBHu 5) standard) ∧
        predictedBlock (.intraBHu 5) standard = some (geom standard .y true 5)) ∧
      (interReady 1 (atMb 16 16 0 0) ∧
        exec (.inter 1 .y true 5 4 0) (atMb 16 16 0 0) = .next (after (.inter 1 .y true 5 4 0) (atMb 16 16 0 0)) ∧
        mvPhase 4 ≠ 0 ∧ mvPhase 8 = 0) :=
  ⟨by decide +kernel, by decide, ⟨rfl, exec_eq_after _ _, rfl⟩, by decide, exec_eq_after _ _, by decide⟩
theorem witness_StepKeepsTheInvariant :
    StateInv (atMb 48 32 2 1) ∧ step (atMb 48 32 2 1) = .next (atMb 48 32 2 1) :=
  ⟨stateInv_atMb (by decide) (by decide), rfl⟩
theorem witness_CanonicalStoresThatReadAlikeAreEqual :
    Memory.wf [(0, 7), (12, 9)] ∧ ∀ k, Memory.read [(0, 7), (12, 9)] k = Memory.read [(0, 7), (12, 9)] k :=
  ⟨by decide, fun _ => rfl⟩

end Sys2Proof.Tests.Slice0
end

section
/-! PROOFS. The step on a scheduled event and on the core's turn, and the statements of spec/00_scope.md. -/

namespace Sys2Proof.Machine

/-! ### One step, by what its turn is -/

/-- The next scheduled event occurs (R59). -/
theorem step_of_scheduled {s : State} {e : Event} {rest : List Event} (h : s.schedule = e :: rest) :
    step s = occur e { s with schedule := rest } := by
  simp only [step, stepMachine, h]

/-- With nothing scheduled the turn is the core's, unless it is stuck (log entry 1, R237). -/
theorem step_of_unscheduled {s : State} (hf : s.faulted = false) (h : s.schedule = []) :
    step s = coreTurn s := by
  simp [step, stepMachine, h, hf]

/-- A word that the host writes arrives behind those in the port (R59, R267). -/
@[simp] theorem occur_issue (w : CommandWord) (s : State) :
    occur (.issue w) s = .next { s with port := s.port ++ [w] } := rfl

/-- The core's turn on a state with FAULTED = 0, scheduled or because nothing is (log entry 1). -/
theorem step_eq_coreTurn {s : State} {rest : List Event} (hf : s.faulted = false)
    (ht : s.schedule = .core :: rest ∨ (s.schedule = [] ∧ rest = [])) :
    step s = coreTurn { s with schedule := rest } := by
  rcases ht with h | ⟨h, rfl⟩
  · exact step_of_scheduled h
  · rw [step_of_unscheduled hf h, ← h]

/-- On its turn a core with FAULTED = 0 performs the word at the front of the port (R274). -/
theorem coreTurn_of_word {s : State} {w : CommandWord} {ws : List CommandWord} (hf : s.faulted = false)
    (hp : s.port = w :: ws) : coreTurn s = perform w { s with port := ws } := by
  simp [coreTurn, hf, hp]

end Sys2Proof.Machine

namespace Sys2Proof.Proofs

open Sys2Proof Sys2Proof.Machine

/-- Settles O11: the turn is the core's in both forms of the schedule, the core's turn performs the front word, and
performing a word that decodes is its meaning. -/
theorem stepRunsTheDecodedCommand : Obligations.StepRunsTheDecodedCommand := by
  refine ⟨fun s w rest => (step_of_scheduled rfl).trans (occur_issue w _), fun s w ws rest i hf hp hd ht => ?_⟩
  calc step s
      = coreTurn { s with schedule := rest } := step_eq_coreTurn hf ht
    _ = perform w { s with port := ws, schedule := rest } := coreTurn_of_word hf hp
    _ = finish (exec i { s with port := ws, schedule := rest, busy := true }) := perform_ok hd _

/-- Settles O28: neither average leaves 0..255, so narrowing to a sample loses nothing. -/
theorem averagesAreExact : Obligations.AveragesAreExact :=
  fun x y z => ⟨toNat_avg2 x y, toNat_avg3 x y z⟩

end Sys2Proof.Proofs
end

section
/-! PROOFS. What each operation of a step does to the invariant, to the status block and to the count of draws, and the
statements of spec/10_state.md. -/

namespace Sys2Proof.Machine

/-! ### The commands a word decodes to, and the blocks they predict -/

theorem wellFormed_intraMbOf (mode : BitVec 2) (plane : Plane) : (intraMbOf mode plane).wellFormed = true := by
  unfold intraMbOf
  split <;> rfl

theorem wellFormed_of_intraBOf {bmode blk : BitVec 4} {i : Instr} (h : intraBOf bmode blk = some i) :
    i.wellFormed = true := by
  unfold intraBOf at h
  split at h <;> cases h <;> rfl

/-- A word of format P decodes only to a command whose BLK passes R93. -/
theorem wellFormed_of_decodeP {w : CommandWord} {i : Instr} (h : decodeP w = .ok i) : i.wellFormed = true := by
  unfold decodeP at h
  split at h
  · cases h
  · split at h
    · next hblk => cases h; exact hblk
    · cases h

/-- Every command that a word decodes to is well-formed (R93, R95). -/
theorem wellFormed_of_decode {w : CommandWord} {i : Instr} (h : decode w = .ok i) : i.wellFormed = true := by
  unfold decode at h
  split at h
  · cases h
  · next fmt _ =>
    split at h
    · cases fmt with
      | c => cases h; rfl
      | m => cases h; rfl
      | i =>
        simp only [decodeFields, decodeI] at h
        split at h
        · cases h
        · cases h; exact wellFormed_intraMbOf _ _
      | b =>
        simp only [decodeFields, decodeB] at h
        split at h
        · cases h
        · next hb => cases h; exact wellFormed_of_intraBOf hb
      | p => exact wellFormed_of_decodeP h
    · cases h

/-- A predicted block is one that R116 names, and a well-formed command names one inside the current macroblock. -/
theorem predictedBlock_eq_geom {i : Instr} {s : State} {b : Block} (h : predictedBlock i s = some b) :
    ∃ p sub blk, b = geom s p sub blk ∧ (i.wellFormed = true → sub = false ∨ interBlkOk p sub blk = true) := by
  cases i with
  | cfgRaster | beginMb => cases h
  | intraMbDc p | intraMbV p | intraMbH p | intraMbTm p => cases h; exact ⟨p, false, 0, rfl, fun _ => .inl rfl⟩
  | intraBDc blk | intraBTm blk | intraBVe blk | intraBHe blk | intraBLd blk | intraBRd blk | intraBVr blk
  | intraBVl blk | intraBHd blk | intraBHu blk => cases h; exact ⟨.y, true, blk, rfl, fun _ => .inr rfl⟩
  | inter _ p sub blk => cases h; exact ⟨p, sub, blk, rfl, .inr⟩

/-- A predicted block lies in the current raster (R116). -/
theorem predictedBlock_fb {i : Instr} {s : State} {b : Block} (h : predictedBlock i s = some b) : b.fb = s.mbFb := by
  obtain ⟨p, sub, blk, rfl, -⟩ := predictedBlock_eq_geom h
  exact geom_fb s p sub blk

/-- With a context, INTRA_MB predicts its block, which the context registers alone name. -/
theorem intraMb_of_context {s t : State} (hc : sameContext s t) (hv : s.mbValid = true) (w : CommandWord) (p : Plane)
    (rule : Neighbours → Nat → Nat → Sample) :
    intraMb w p rule t = .next (predictBlock (geom s p false 0) (rule (mux t (geom s p false 0) false))
      (intraDraws (geom s p false 0).size) t) := by
  simp [intraMb, geom_congr hc, hc.2.1, hv]

/-- With a context, INTRA_B predicts its block, which the context registers alone name. -/
theorem intraB_of_context {s t : State} (hc : sameContext s t) (hv : s.mbValid = true) (w : CommandWord)
    (blk : BitVec 4) (rule : Neighbours → Nat → Nat → Sample) :
    intraB w blk rule t = .next (predictBlock (geom s .y true blk)
      (rule (mux t (geom s .y true blk) (fixApplies blk))) (intraDraws (geom s .y true blk).size) t) := by
  simp [intraB, geom_congr hc, hc.2.1, hv]

/-- An intra command with a context predicts its block by a rule over the neighbours, the same in every state with
those context registers. -/
theorem exec_intra_eq {i : Instr} {s : State} {b : Block}
    (hi : ∀ ref p sub blk mvx mvy, i ≠ .inter ref p sub blk mvx mvy) (hb : predictedBlock i s = some b)
    (hv : s.mbValid = true) :
    ∃ (rule : Neighbours → Nat → Nat → Sample) (fix : Bool), ∀ t, sameContext s t →
      exec i t = .next (predictBlock b (rule (mux t b fix)) (intraDraws b.size) t) := by
  cases i with
  | cfgRaster | beginMb => cases hb
  | intraMbDc | intraMbV | intraMbH | intraMbTm =>
    cases hb; exact ⟨_, _, fun t hc => intraMb_of_context hc hv _ _ _⟩
  | intraBDc | intraBTm | intraBVe | intraBHe | intraBLd | intraBRd | intraBVr | intraBVl | intraBHd | intraBHu =>
    cases hb; exact ⟨_, _, fun t hc => intraB_of_context hc hv _ _ _⟩
  | inter ref p sub blk mvx mvy => exact absurd rfl (hi ref p sub blk mvx mvy)

/-! ### What keeps the invariant -/

/-- The invariant speaks of no field but these. -/
theorem StateInv.congr {s t : State} (h : StateInv s) (hc : sameContext s t) (hf : sameFault s t)
    (he : t.cfgErr = s.cfgErr) (hb : t.busy = s.busy) (hm : t.store = s.store) : StateInv t := by
  obtain ⟨hfb, hv, hs, hx, hy⟩ := hc
  obtain ⟨hf, hcode, hcmd⟩ := hf
  exact
    { slotsLegal := by simpa only [slot_congr hfb] using h.slotsLegal
      contextInGrid := by simpa only [slot_congr hfb, hv, hs, hx, hy] using h.contextInGrid
      faultRegisters := by simpa only [hf, hcode, hcmd] using h.faultRegisters
      cfgErrLegal := he ▸ h.cfgErrLegal
      idle := hb ▸ h.idle
      storeWf := hm ▸ h.storeWf
      storeInRange := by simpa only [hm, addressable_congr hfb] using h.storeInRange }

theorem stateInv_reset : StateInv State.reset where
  slotsLegal := by decide
  contextInGrid := nofun
  faultRegisters := ⟨rfl, rfl⟩
  cfgErrLegal := Nat.zero_le 2
  idle := rfl
  storeWf := List.Pairwise.nil
  storeInRange := nofun

theorem StateInv.resetEvent (s : State) : StateInv (resetEvent s) :=
  stateInv_reset.congr ⟨rfl, rfl, rfl, rfl, rfl⟩ ⟨rfl, rfl, rfl⟩ rfl rfl rfl

/-- The nine codes of R232. -/
theorem faultCodeOf_range (k : LogicFault) : 1 ≤ (faultCodeOf k).toNat ∧ (faultCodeOf k).toNat ≤ 9 := by
  cases k <;> decide

theorem StateInv.raiseLogicFault {s : State} (h : StateInv s) (k : LogicFault) (w : CommandWord) :
    StateInv (raiseLogicFault k w s) :=
  { h with faultRegisters := faultCodeOf_range k, idle := rfl }

theorem StateInv.setCfgErr {s : State} (h : StateInv s) {e : BitVec 2} (he : e.toNat ≤ 2) :
    StateInv { s with cfgErr := e } :=
  { h with cfgErrLegal := he }

theorem StateInv.raiseUnsupported {s : State} (h : StateInv s) (e : UnsupportedInput) :
    StateInv (raiseUnsupported e s) :=
  h.setCfgErr (by cases e <;> decide)

/-- BEGIN_MB's own check is the invariant's clause on the context (R114). -/
theorem StateInv.setContext {s : State} (h : StateInv s) {f : Slot} {x y : BitVec 10} (hv : (s.slot f).valid = true)
    (hx : x.toNat < (s.slot f).mbW) (hy : y.toNat < (s.slot f).mbH) : StateInv (setContext f x y s) :=
  { h with contextInGrid := fun _ => ⟨hv, hx, hy⟩ }

/-- A context may be given up at any time. -/
theorem StateInv.restrictContext {s : State} (h : StateInv s) (keep : Bool) :
    StateInv { s with mbValid := s.mbValid && keep } :=
  { h with contextInGrid := fun hv => h.contextInGrid (Bool.and_eq_true_iff.1 hv).1 }

theorem Memory.mem_clearSlot {m : Memory} {f : Slot} {c : Host.Cell} :
    c ∈ m.clearSlot f ↔ c ∈ m ∧ keySlot c.1 ≠ f.toNat := by
  simp [Memory.clearSlot]

/-- After a slot is cleared every written cell is another slot's (R112). -/
theorem Memory.fb_ne_of_mem_clearSlot {m : Memory} {f : Slot} {a : SampleAddr} {v : Sample}
    (h : (cellKey a, v) ∈ m.clearSlot f) : a.fb ≠ f := fun e =>
  (Memory.mem_clearSlot.1 h).2 (by rw [keySlot_cellKey, e])

theorem StateInv.clearSlot {s : State} (h : StateInv s) (f : Slot) : StateInv (s.clearSlot f) :=
  { h with
    storeWf := Memory.wf_clearSlot f h.storeWf
    storeInRange := fun k v hk => h.storeInRange k v (Memory.mem_clearSlot.1 hk).1 }

theorem slot_setSlot (s : State) (f g : Slot) (r : FbSlot) :
    (s.setSlot f r).slot g = if g = f then r else s.slot g :=
  FbFile.get_set s.fb f g r

/-- The registers of a slot do not matter to the cells of another (R51). -/
theorem addressable_setSlot_ne (s : State) {f : Slot} (r : FbSlot) {a : SampleAddr} (ha : a.fb ≠ f) :
    (s.setSlot f r).addressable a = s.addressable a := by
  simp only [State.addressable, slot_setSlot, if_neg ha]

/-- The registers of a slot may take any legal value while no context and no written cell rests on them. -/
theorem StateInv.setSlot {s : State} (h : StateInv s) {f : Slot} {r : FbSlot} (hr : r.legal)
    (hctx : s.mbValid = true → s.mbFb ≠ f) (hstore : ∀ a v, (cellKey a, v) ∈ s.store → a.fb ≠ f) :
    StateInv (s.setSlot f r) :=
  { h with
    slotsLegal := fun g => by
      rw [slot_setSlot]
      split
      · exact hr
      · exact h.slotsLegal g
    contextInGrid := fun hv => by
      simpa only [slot_setSlot, State.setSlot_mbFb, State.setSlot_mbX, State.setSlot_mbY, if_neg (hctx hv)]
        using h.contextInGrid hv
    storeInRange := fun k v hk => by
      obtain ⟨a, rfl, ha⟩ := h.storeInRange k v hk
      exact ⟨a, rfl, (addressable_setSlot_ne s r (hstore a v hk)).trans ha⟩ }

/-- The end of a raster leaves no context and no written cell in its slot (R112). -/
theorem StateInv.endRaster {s : State} (h : StateInv s) (f : Slot) : StateInv (endRaster f s) :=
  ((h.clearSlot f).restrictContext (s.mbFb != f)).setSlot (r := FbSlot.reset) (.inl ⟨rfl, rfl, rfl⟩)
    (fun hv => by simpa using (Bool.and_eq_true_iff.1 hv).2) (fun _ _ => Memory.fb_ne_of_mem_clearSlot)

/-- A new raster takes the place of the ended one (R112). -/
theorem StateInv.beginRaster {s : State} (h : StateInv s) (f : Slot) {dw dh : BitVec 14} (hw : dw.toNat % 2 = 0)
    (hh : dh.toNat % 2 = 0) (hw0 : dw.toNat ≠ 0) (hh0 : dh.toNat ≠ 0) :
    StateInv (beginRaster f dw dh (Machine.endRaster f s)) :=
  ((h.endRaster f).setSlot (r := ⟨true, dw, dh⟩) (.inr ⟨rfl, hw, hw0, hh, hh0⟩)
    (fun hv => by simpa using (Bool.and_eq_true_iff.1 hv).2)
    (fun _ _ => Memory.fb_ne_of_mem_clearSlot)).setCfgErr (e := 0) (Nat.zero_le 2)

theorem StateInv.swrite {s : State} (h : StateInv s) {a : SampleAddr} (ha : s.addressable a = true) (v : Sample) :
    StateInv (s.swrite a v) :=
  { h with
    storeWf := Memory.wf_write _ _ h.storeWf
    storeInRange := fun k v' hk => by
      rcases Memory.mem_write hk with he | hk
      · cases he; exact ⟨a, rfl, ha⟩
      · exact h.storeInRange k v' hk }

theorem StateInv.predictBlock {s : State} (h : StateInv s) {b : Block}
    (hb : ∀ c r, c < b.size → r < b.size → s.addressable (b.addr c r) = true) (pred : Nat → Nat → Sample) (n : Nat) :
    StateInv (predictBlock b pred n s) :=
  { h with
    storeWf := wf_writeBlock b pred h.storeWf
    storeInRange := fun k v hk => by
      rcases mem_writeBlock hk with ⟨c, r, hc, hr, rfl⟩ | hk
      · exact ⟨b.addr c r, rfl, hb c r hc hr⟩
      · exact h.storeInRange k v hk }

/-! ### The invariant along a step -/

/-- With a context in the grid, every cell of the block that a well-formed command predicts is addressable (R51). -/
theorem StateInv.predictedBlock_addressable {s : State} (h : StateInv s) {i : Instr} {b : Block}
    (hw : i.wellFormed = true) (hv : s.mbValid = true) (hb : predictedBlock i s = some b) {c r : Nat}
    (hc : c < b.size) (hr : r < b.size) : s.addressable (b.addr c r) = true := by
  obtain ⟨p, sub, blk, rfl, hblk⟩ := predictedBlock_eq_geom hb
  obtain ⟨hslot, hx, hy⟩ := h.contextInGrid hv
  exact geom_addressable p sub blk (hblk hw) hslot hx hy hc hr

/-- Every well-formed command keeps the invariant, BUSY aside, which the core lowers when the command ends (log entry
7). -/
theorem exec_keeps_stateInv {i : Instr} {s u : State} (hw : i.wellFormed = true) (h : StateInv (endCommand s))
    (he : exec i s = .next u) : StateInv (endCommand u) := by
  rcases exec_cases i s with ⟨k, hk⟩ | ⟨f, dw, dh, e, -, hk⟩ | ⟨f, dw, dh, -, h1, h2, h3, h4, hk⟩ |
    ⟨f, x, y, -, hv, hx, hy, hk⟩ | ⟨b, pred, n, hb, hv, hk⟩ <;> cases he.symm.trans hk
  case inl => exact h.raiseLogicFault k (encode i)
  case inr.inl => exact (h.endRaster f).raiseUnsupported e
  case inr.inr.inl => exact h.beginRaster f h1 h2 h3 h4
  case inr.inr.inr.inl => exact h.setContext hv hx hy
  case inr.inr.inr.inr =>
    exact h.predictBlock (fun c r hc hr =>
      h.predictedBlock_addressable (i := i) hw hv hb hc hr) pred n

theorem coreTurn_keeps_stateInv {s t : State} (h : StateInv s) (ht : coreTurn s = .next t) : StateInv t := by
  rcases coreTurn_cases ht with rfl | ⟨w, rest, -, -, ⟨k, -, rfl⟩ | ⟨i, u, hd, hu, rfl⟩⟩
  · exact h
  · exact (h.raiseLogicFault k w).congr ⟨rfl, rfl, rfl, rfl, rfl⟩ ⟨rfl, rfl, rfl⟩ rfl rfl rfl
  · refine exec_keeps_stateInv (wellFormed_of_decode hd) ?_ hu
    exact h.congr ⟨rfl, rfl, rfl, rfl, rfl⟩ ⟨rfl, rfl, rfl⟩ rfl h.idle.symm rfl

/-- The invariant says nothing of the schedule. -/
theorem StateInv.withSchedule {s : State} (h : StateInv s) (rest : List Event) :
    StateInv { s with schedule := rest } :=
  h.congr ⟨rfl, rfl, rfl, rfl, rfl⟩ ⟨rfl, rfl, rfl⟩ rfl rfl rfl

theorem step_keeps_stateInv {s t : State} (h : StateInv s) (ht : step s = .next t) : StateInv t := by
  rcases step_cases ht with ⟨-, -, hc⟩ | ⟨e, rest, -, ⟨-, hc⟩ | ⟨w, -, rfl⟩ | ⟨a, -, -, -, rfl⟩ |
    ⟨a, v, -, -, ha, rfl⟩ | ⟨o, -, rfl⟩ | ⟨o, v, -, rfl⟩ | ⟨-, rfl⟩⟩
  · exact coreTurn_keeps_stateInv h hc
  · exact coreTurn_keeps_stateInv (h.withSchedule rest) hc
  · exact h.congr ⟨rfl, rfl, rfl, rfl, rfl⟩ ⟨rfl, rfl, rfl⟩ rfl rfl rfl
  · exact h.congr ⟨rfl, rfl, rfl, rfl, rfl⟩ ⟨rfl, rfl, rfl⟩ rfl rfl rfl
  · exact (h.swrite ha v).withSchedule rest
  · exact h.congr ⟨rfl, rfl, rfl, rfl, rfl⟩ ⟨rfl, rfl, rfl⟩ rfl rfl rfl
  · exact h.withSchedule rest
  · exact .resetEvent _

/-! ### The status block -/

/-- STATUS is the sum of its fields at their places (R31). -/
theorem toNat_statusReg (s : State) : (statusReg s).toNat = s.faulted.toNat + 2 * s.busy.toNat +
    4 * s.mbValid.toNat + 16 * s.cfgErr.toNat + 256 * s.faultCode.toNat := by
  simp only [statusReg, bit, toNat_append_eq_add, toNat_ofBool, BitVec.toNat_ofNat]
  omega

/-- MB_CTX is the sum of its fields at their places (R32). -/
theorem toNat_mbCtxReg (s : State) :
    (mbCtxReg s).toNat = s.mbY.toNat + 2 ^ 16 * s.mbX.toNat + 2 ^ 28 * s.mbFb.toNat := by
  simp only [mbCtxReg, toNat_append_eq_add, BitVec.toNat_ofNat]
  omega

/-- The two halves of FAULT_CMD make it up (R33). -/
theorem toNat_faultCmdRegs (s : State) :
    (faultCmdLoReg s).toNat + 2 ^ 32 * (faultCmdHiReg s).toNat = s.faultCmd.toNat := by
  have := s.faultCmd.isLt
  simp only [faultCmdLoReg, faultCmdHiReg, BitVec.extractLsb'_toNat, Nat.shiftRight_eq_div_pow]
  omega

/-- FB_DIMf is the sum of its fields at their places (R34). -/
theorem toNat_fbDimReg (s : State) (f : Slot) :
    (fbDimReg s f).toNat = (s.slot f).dh.toNat + 2 ^ 14 * (s.slot f).dw.toNat + 2 ^ 31 * (s.slot f).valid.toNat := by
  simp only [fbDimReg, bit, toNat_append_eq_add, toNat_ofBool, BitVec.toNat_ofNat]
  omega

/-- The four FB_DIM registers stand one after another from offset 0x10 (R34). -/
theorem statusBlock_fbDim (s : State) : ∀ f : Slot, statusBlock s (0x10 + 4 * f.toNat) = fbDimReg s f
  | 0 => rfl
  | 1 => rfl
  | 2 => rfl
  | 3 => rfl

/-- Every register reads 0 after reset (R42). -/
theorem statusBlock_reset (offset : Nat) : statusBlock State.reset offset = 0 := by
  unfold statusBlock
  split <;> rfl

/-- The block reads 0 off its eight registers (R30). -/
theorem statusBlock_unlisted (s : State) {offset : Nat} (h : offset % 4 ≠ 0 ∨ 0x1C < offset) :
    statusBlock s offset = 0 := by
  unfold statusBlock
  split
  case h_9 => rfl
  all_goals omega

/-- A status read answers the register, and is no other effect (R30). -/
@[simp] theorem occur_statusRead (offset : Nat) (s : State) :
    occur (.statusRead offset) s = .next { s with reply := some (.status (statusBlock s offset)) } := rfl

/-- A status write is ignored (R30). -/
@[simp] theorem occur_statusWrite (offset : Nat) (v : StatusWord) (s : State) :
    occur (.statusWrite offset v) s = .next s := rfl

/-- The status block speaks of no event still to come. -/
theorem statusBlock_withSchedule (s : State) (rest : List Event) (offset : Nat) :
    statusBlock { s with schedule := rest } offset = statusBlock s offset := rfl

/-! ### The count of draws -/

/-- A command takes its draws from the count on, if it takes any. -/
theorem draws_le_of_exec {i : Instr} {s u : State} (h : exec i s = .next u) : s.draws ≤ u.draws := by
  rcases exec_cases i s with ⟨k, hk⟩ | ⟨f, dw, dh, e, -, hk⟩ | ⟨f, dw, dh, -, -, -, -, -, hk⟩ |
    ⟨f, x, y, -, -, -, -, hk⟩ | ⟨b, pred, n, -, -, hk⟩ <;> cases h.symm.trans hk <;> simp

theorem draws_le_of_coreTurn {s t : State} (h : coreTurn s = .next t) : s.draws ≤ t.draws := by
  rcases coreTurn_cases h with rfl | ⟨w, rest, -, -, ⟨k, -, rfl⟩ | ⟨i, u, -, hu, rfl⟩⟩
  · exact Nat.le_refl _
  · exact Nat.le_refl _
  · rw [endCommand_draws]
    exact draws_le_of_exec (s := beginCommand { s with port := rest }) hu

theorem draws_le_of_step {s t : State} (h : step s = .next t) : s.draws ≤ t.draws := by
  rcases step_cases h with ⟨-, -, hc⟩ | ⟨e, rest, -, ⟨-, hc⟩ | ⟨w, -, rfl⟩ | ⟨a, -, -, -, rfl⟩ |
    ⟨a, v, -, -, -, rfl⟩ | ⟨o, -, rfl⟩ | ⟨o, v, -, rfl⟩ | ⟨-, rfl⟩⟩
  case inl => exact draws_le_of_coreTurn hc
  case inr.inl => exact draws_le_of_coreTurn (s := { s with schedule := rest }) hc
  case inr.inr.inr.inl => exact Nat.le_succ _
  all_goals exact Nat.le_refl _

/-- A HostRead that meets the conditions of R60 replies with the cell's value or a draw. -/
theorem occur_hostRead {a : SampleAddr} {s : State} (hb : s.busy = false) (ha : s.addressable a = true) :
    occur (.hostRead a) s = .next { s with reply := some (.sample (s.sread 0 a)), draws := s.draws + 1 } :=
  hostAccess_ok hb ha _

/-- A read of an unwritten cell is a draw (R39). -/
theorem sread_of_unwritten {s : State} {a : SampleAddr} (h : s.cell a = none) (j : Nat) :
    s.sread j a = Config.freeSample (s.draws + j) := by
  simp [State.sread, h]

/-- INTER with its checks passed predicts its block (R200). -/
theorem execInter_of_ready {ref : Slot} {s : State} (h : interReady ref s) (p : Plane) (sub : Bool) (blk : BitVec 4)
    (mvx mvy : BitVec 16) : exec (.inter ref p sub blk mvx mvy) s =
      .next (predictBlock (geom s p sub blk) (predInter s ⟨geom s p sub blk, ref, mvx, mvy⟩)
        (interDraws ⟨geom s p sub blk, ref, mvx, mvy⟩) s) := by
  obtain ⟨hv, hr, hne⟩ := h
  simp [exec, execInter, hv, hr, hne]

/-- The reference reads of INTER, counted: a copy makes S·S, the filter six for each of S·(S + 5) entries (R204,
R206). -/
theorem interDraws_eq (a : InterArgs) : interDraws a =
    if mvPhase a.mvx = 0 ∧ mvPhase a.mvy = 0 then a.block.size * a.block.size
    else 6 * (a.block.size * (a.block.size + 5)) := by
  simp [interDraws, isCopy]

/-! ### Storage dimensions -/

/-- The least number of macroblocks that covers a 14-bit dimension (R24). -/
theorem mbCount_bounds (d : BitVec 14) : d.toNat ≤ 16 * ((d.toNat + 15) / 16) ∧
    16 * ((d.toNat + 15) / 16) < d.toNat + 16 ∧ (d.toNat + 15) / 16 ≤ 1024 := by
  have := d.isLt
  omega

/-- A chroma macroblock has half the edge of a luma one (R24). -/
theorem two_mul_mbSize {p : Plane} (h : p ≠ .y) : 2 * mbSize p = mbSize .y := by
  cases p
  case y => exact absurd rfl h
  all_goals rfl

end Sys2Proof.Machine

namespace Sys2Proof.Proofs

open Sys2Proof Sys2Proof.Machine

/-- Settles O58: by the cases of a step, each operation of which keeps the invariant. -/
theorem stepKeepsTheInvariant : Obligations.StepKeepsTheInvariant :=
  fun _ _ => step_keeps_stateInv

/-- Settles O57: the reset state has no configured slot, no context and no written cell. -/
theorem invariantHoldsAfterReset : Obligations.InvariantHoldsAfterReset := stateInv_reset

/-- Settles O1: every register of the reset state is a literal, and its store is empty. -/
theorem resetHoldsEveryResetValue : Obligations.ResetHoldsEveryResetValue :=
  ⟨by decide, rfl, rfl, rfl, rfl, rfl, rfl, rfl, rfl, rfl, fun _ => rfl⟩

/-- Settles O4: each register as a sum of its fields, and a status write is ignored. -/
theorem statusRegistersHaveTheirLayout : Obligations.StatusRegistersHaveTheirLayout := by
  refine ⟨fun s => ⟨toNat_statusReg s, toNat_mbCtxReg s, toNat_faultCmdRegs s, fun f => ?_⟩, statusBlock_reset,
    fun s offset v rest => ⟨_, (step_of_scheduled rfl).trans (occur_statusWrite offset v _),
      statusBlock_withSchedule s rest⟩⟩
  rw [statusBlock_fbDim, toNat_fbDimReg]

/-- Settles O5: the two events by what they do, and the offsets that the block does not list. -/
theorem statusReadsHaveNoSideEffect : Obligations.StatusReadsHaveNoSideEffect :=
  ⟨fun _ offset _ => (step_of_scheduled rfl).trans (occur_statusRead offset _),
    fun _ offset v _ => (step_of_scheduled rfl).trans (occur_statusWrite offset v _),
    fun s _ => statusBlock_unlisted s⟩

/-- Settles O20: the luma bounds are those of a macroblock count, and chroma halves the macroblock's edge. -/
theorem storageRoundsUpToMacroblocks : Obligations.StorageRoundsUpToMacroblocks := by
  intro r
  obtain ⟨hw, hw', hw1024⟩ := mbCount_bounds r.dw
  obtain ⟨hh, hh', hh1024⟩ := mbCount_bounds r.dh
  refine ⟨rfl, rfl, hw, hw', hh, hh', fun p hp => ?_, hw1024, hh1024⟩
  simp only [FbSlot.planeW, FbSlot.planeH, ← Nat.mul_assoc, two_mul_mbSize hp, and_self]

/-- Settles O59: in a canonical store what a read finds is an entry, so stores that read alike have the same entries. -/
theorem canonicalStoresThatReadAlikeAreEqual : Obligations.CanonicalStoresThatReadAlikeAreEqual :=
  fun _ _ hm hm' h => Memory.eq_of_mem_iff hm hm' fun (k, v) => by
    rw [← Memory.read_eq_some_iff hm, ← Memory.read_eq_some_iff hm', h k]

/-- Settles O53: both states predict the one block by the one rule, over equal neighbours. -/
theorem intraReadsOnlyItsOwnPlane : Obligations.IntraReadsOnlyItsOwnPlane := by
  intro i b s s' t t' hi hb hv hc hd hcells ht ht' a ha
  obtain ⟨rule, fix, he⟩ := exec_intra_eq hi hb hv
  cases ht.symm.trans (he s ⟨rfl, rfl, rfl, rfl, rfl⟩)
  cases ht'.symm.trans (he s' hc)
  have hmux : mux s' b fix = mux s b fix := mux_congr hc hd (by rwa [predictedBlock_fb hb]) fix
  obtain ⟨c, r, hcs, hrs, rfl⟩ := (b.contains_iff a).1 ha
  rw [cell_predictBlock_inside _ _ _ _ hcs hrs, cell_predictBlock_inside _ _ _ _ hcs hrs, hmux]

/-- Settles O56: a HostRead of an unwritten cell by its step, the other counts by what each command and each step does to
the count. -/
theorem drawsAreFresh : Obligations.DrawsAreFresh := by
  refine ⟨fun s a rest hb ha hn => ?_, fun _ _ => draws_le_of_step, fun i s t b hv ht hb hi => ?_,
    fun ref p sub blk mvx mvy s t hr ht => ?_⟩
  · refine ⟨_, (step_of_scheduled rfl).trans (occur_hostRead (s := { s with schedule := rest }) hb ha), ?_, hn, rfl⟩
    exact congrArg (some ∘ HostReply.sample) (sread_of_unwritten hn 0)
  · obtain ⟨rule, fix, he⟩ := exec_intra_eq hi hb hv
    cases ht.symm.trans (he s ⟨rfl, rfl, rfl, rfl, rfl⟩)
    exact predictBlock_draws _ _ _ _
  · cases ht.symm.trans (execInter_of_ready hr p sub blk mvx mvy)
    rw [predictBlock_draws, interDraws_eq]

end Sys2Proof.Proofs
end

section
/-! PROOFS. Which cells the neighbour mux, a reference read, a command and a host step access, and the statements of
spec/20_memory.md. -/

namespace Sys2Proof.Machine

/-! ### The cells that the mux reads -/

section
variable {s t : State} {b : Block} {keep : SampleAddr → Prop} (hd : t.draws = s.draws) (hk : sameCells keep s t)
include hd hk

/-- The above row is read only where it is present (R132). -/
theorem muxAboveRow_congr {i : Nat}
    (h : aPresent b = true → keep ⟨b.fb, b.plane, b.size * b.tileX + i, b.size * b.tileY - 1⟩) :
    muxAboveRow t b i = muxAboveRow s b i := by
  unfold muxAboveRow
  split
  · next hp => exact sread_congr hd (hk _ (h hp)) _
  · rfl

/-- The left column is read only where it is present (R132). -/
theorem muxLeftColumn_congr {i : Nat}
    (h : lPresent b = true → keep ⟨b.fb, b.plane, b.size * b.tileX - 1, b.size * b.tileY + i⟩) :
    muxLeftColumn t b i = muxLeftColumn s b i := by
  unfold muxLeftColumn
  split
  · next hp => exact sread_congr hd (hk _ (h hp)) _
  · rfl

/-- The corner is read only where it is present (R133). -/
theorem muxAboveLeft_congr
    (h : alPresent b = true → keep ⟨b.fb, b.plane, b.size * b.tileX - 1, b.size * b.tileY - 1⟩) :
    muxAboveLeft t b = muxAboveLeft s b := by
  unfold muxAboveLeft
  split
  · next hp => exact sread_congr hd (hk _ (h hp)) _
  · rfl

/-- The above-right sample is read only below the top edge (R134). -/
theorem muxBr_congr {tx ty : Nat}
    (h : 0 < ty → keep ⟨b.fb, b.plane, b.size * tx + b.size - 1, b.size * ty - 1⟩) :
    muxBr t b tx ty = muxBr s b tx ty := by
  unfold muxBr
  split
  · next hp => exact sread_congr hd (hk _ (h hp)) _
  · rfl

end

/-- The tile of the above-right region depends on the context registers alone (R135). -/
theorem regionTile_congr {s t : State} (hc : sameContext s t) (b : Block) (fix : Bool) :
    regionTile t b fix = regionTile s b fix := by
  obtain ⟨-, -, -, hx, hy⟩ := hc
  rw [regionTile, regionTile, hx, hy]

/-- The presence of the above-right row depends on the slot registers alone (R131). -/
theorem arPresent_congr {s t : State} (hf : t.fb = s.fb) (b : Block) (tx ty : Nat) :
    arPresent t b tx ty = arPresent s b tx ty := by
  rw [arPresent, arPresent, gridW, gridW, slot_congr hf]

/-- A block with an above neighbour tile does not start at the top edge (R131). -/
theorem y0_pos_of_aPresent {b : Block} (h : aPresent b = true) : 0 < b.y0 :=
  Nat.pos_of_div_pos (of_decide_eq_true h)

/-- A block with a left neighbour tile does not start at the left edge (R131). -/
theorem x0_pos_of_lPresent {b : Block} (h : lPresent b = true) : 0 < b.x0 :=
  Nat.pos_of_div_pos (of_decide_eq_true h)

/-- The corner is present where the above row and the left column are (R131). -/
theorem alPresent_iff (b : Block) : alPresent b = true ↔ lPresent b = true ∧ aPresent b = true :=
  Bool.and_eq_true_iff

theorem geom_size_pos (s : State) (p : Plane) (sub : Bool) (blk : BitVec 4) : 0 < (geom s p sub blk).size := by
  cases p <;> cases sub <;> exact Nat.succ_pos _

/-- The tile whose above-right region a block takes ends no further left than the block and starts no lower (R134,
R135). -/
theorem regionTile_bounds (s : State) (p : Plane) (sub : Bool) (blk : BitVec 4) {fix : Bool}
    (hfix : fix = true → p = .y ∧ sub = true) :
    (geom s p sub blk).x0 + (geom s p sub blk).size ≤
        (geom s p sub blk).size * ((regionTile s (geom s p sub blk) fix).1 + 1) ∧
      (geom s p sub blk).size * (regionTile s (geom s p sub blk) fix).2 ≤ (geom s p sub blk).y0 := by
  cases fix with
  | false =>
    obtain ⟨hx, hy⟩ := geom_aligned s p sub blk
    simp [regionTile, Nat.mul_succ, hx, hy]
  | true =>
    obtain ⟨rfl, rfl⟩ := hfix rfl
    simp only [regionTile, geom, if_true]
    omega

/-- The tile whose above-right region a block takes does not reach beyond the block's macroblock (R134, R135). -/
theorem regionTile_in_macroblock (s : State) (p : Plane) (sub : Bool) (blk : BitVec 4) {fix : Bool}
    (h : sub = false ∨ interBlkOk p sub blk = true) (hfix : fix = true → p = .y ∧ sub = true) :
    (geom s p sub blk).size * (regionTile s (geom s p sub blk) fix).1 + (geom s p sub blk).size ≤
      mbSize p * s.mbX.toNat + mbSize p := by
  cases fix with
  | false => simpa [regionTile, geom_aligned] using (geom_in_macroblock s p sub blk h).2.1
  | true =>
    obtain ⟨rfl, rfl⟩ := hfix rfl
    simp only [regionTile, geom, mbSize, if_true]
    omega

/-- A position left of a block, right of it or above it is outside it. -/
theorem Block.contains_eq_false {b : Block} {a : SampleAddr}
    (h : a.x < b.x0 ∨ b.x0 + b.size ≤ a.x ∨ a.y < b.y0) : b.contains a = false := by
  rw [Bool.eq_false_iff, ne_eq, Block.contains_iff]
  rintro ⟨c, r, hc, hr, rfl⟩
  simp only [Block.addr] at h
  omega

/-- The mux reads no cell of the block whose neighbours it gives (R65, R131 to R135). -/
theorem mux_congr_outside {s t : State} {p : Plane} {sub : Bool} {blk : BitVec 4} {fix : Bool}
    (hfix : fix = true → p = .y ∧ sub = true) (hc : sameContext s t) (hd : t.draws = s.draws)
    (hk : sameCells (fun a => (geom s p sub blk).contains a = false) s t) :
    mux t (geom s p sub blk) fix = mux s (geom s p sub blk) fix := by
  obtain ⟨hx, hy⟩ := geom_aligned s p sub blk
  obtain ⟨hright, hlow⟩ := regionTile_bounds s p sub blk hfix
  have hsize := geom_size_pos s p sub blk
  generalize geom s p sub blk = b at *
  generalize htile : regionTile s b fix = tile at *
  have habove : muxAboveRow t b = muxAboveRow s b := funext fun i =>
    muxAboveRow_congr hd hk fun ha => Block.contains_eq_false <| .inr <| .inr <| by
      have := y0_pos_of_aPresent ha
      simp only; omega
  have hleft : muxLeftColumn t b = muxLeftColumn s b := funext fun i =>
    muxLeftColumn_congr hd hk fun hl => Block.contains_eq_false <| .inl <| by
      have := x0_pos_of_lPresent hl
      simp only; omega
  have hcorner : muxAboveLeft t b = muxAboveLeft s b :=
    muxAboveLeft_congr hd hk fun hal => Block.contains_eq_false <| .inl <| by
      have := x0_pos_of_lPresent ((alPresent_iff b).1 hal).1
      simp only; omega
  have har : muxAr t b tile.1 tile.2 = muxAr s b tile.1 tile.2 := funext fun i =>
    sread_congr hd (hk _ <| Block.contains_eq_false <| .inr <| .inl <| by simp only; omega) _
  have hbr : muxBr t b tile.1 tile.2 = muxBr s b tile.1 tile.2 :=
    muxBr_congr hd hk fun hty => Block.contains_eq_false <| .inr <| .inr <| by
      have := Nat.mul_pos hsize hty
      simp only; omega
  simp only [mux, regionTile_congr hc, htile, arPresent_congr hc.1, habove, hleft, hcorner, har, hbr]

/-! ### Reads stay in the plane -/

/-- A configured slot has samples in every plane (R24, R35). -/
theorem FbSlot.legal.plane_pos {r : FbSlot} (h : r.legal) (hv : r.valid = true) (p : Plane) :
    0 < r.planeW p ∧ 0 < r.planeH p := by
  obtain ⟨hn, -⟩ | ⟨-, -, hw, -, hh⟩ := h
  · simp [hn] at hv
  · have hs : 0 < mbSize p := by cases p <;> decide
    have hmbW : 0 < r.mbW := by simp only [FbSlot.mbW]; omega
    have hmbH : 0 < r.mbH := by simp only [FbSlot.mbH]; omega
    exact ⟨Nat.mul_pos hs hmbW, Nat.mul_pos hs hmbH⟩

/-- A clamped position lies among the first `n` (R205). -/
theorem toNat_clamp_lt (v : Int) {n : Nat} (h : 0 < n) : (clamp v 0 (n - 1)).toNat < n := by
  obtain ⟨h0, h1⟩ := clamp_mem (v := v) (show (0 : Int) ≤ n - 1 by omega)
  omega

/-- The current macroblock lies in every plane of its configured slot (R24, R114). -/
theorem StateInv.macroblock_in_plane {s : State} (h : StateInv s) (hv : s.mbValid = true) (p : Plane) :
    (s.slot s.mbFb).valid = true ∧
      mbSize p * s.mbX.toNat + mbSize p ≤ (s.slot s.mbFb).planeW p ∧
      mbSize p * s.mbY.toNat + mbSize p ≤ (s.slot s.mbFb).planeH p := by
  obtain ⟨hslot, hx, hy⟩ := h.contextInGrid hv
  exact ⟨hslot, Nat.mul_le_mul_left _ hx, Nat.mul_le_mul_left _ hy⟩

/-- The above-right row of a tile with a right neighbour lies in the width of the plane (R131). -/
theorem aboveRight_lt_planeW {s : State} {b : Block} {tx ty i : Nat} (h : arPresent s b tx ty = true)
    (hi : i < b.size) : b.size * (tx + 1) + i < (s.slot b.fb).planeW b.plane := by
  calc b.size * (tx + 1) + i
      < b.size * (tx + 1) + b.size := Nat.add_lt_add_left hi _
    _ = b.size * (tx + 1 + 1) := rfl
    _ ≤ b.size * gridW s b := Nat.mul_le_mul_left _ ((arPresent_iff s b tx ty).1 h).2
    _ ≤ (s.slot b.fb).planeW b.plane := Nat.mul_div_le _ _

/-! ### What a command writes -/

/-- The end of a raster changes only cells of its slot (R112). -/
theorem fb_eq_of_endRaster_changes {s : State} {f : Slot} {a : SampleAddr}
    (h : (endRaster f s).cell a ≠ s.cell a) : a.fb = f := by
  by_contra hf
  exact h ((cell_clearSlot s f a).trans (if_neg hf))

/-- A cell that a command changes is one of the block it predicts, or of the slot it configures (R66). -/
theorem exec_changes_cell {i : Instr} {s t : State} {a : SampleAddr} (ht : exec i s = .next t)
    (hne : t.cell a ≠ s.cell a) :
    (∃ dw dh, i = .cfgRaster a.fb dw dh) ∨ ∃ b, predictedBlock i s = some b ∧ b.contains a = true := by
  rcases exec_cases i s with ⟨k, hk⟩ | ⟨f, dw, dh, e, hi, hk⟩ | ⟨f, dw, dh, hi, -, -, -, -, hk⟩ |
    ⟨f, x, y, -, -, -, -, hk⟩ | ⟨b, pred, n, hb, -, hk⟩ <;> cases ht.symm.trans hk
  case inl => exact absurd rfl hne
  case inr.inl => exact .inl ⟨dw, dh, fb_eq_of_endRaster_changes hne ▸ hi⟩
  case inr.inr.inl => exact .inl ⟨dw, dh, fb_eq_of_endRaster_changes hne ▸ hi⟩
  case inr.inr.inr.inl => exact absurd rfl hne
  case inr.inr.inr.inr =>
    refine .inr ⟨b, hb, ?_⟩
    by_contra hc
    exact hne (cell_predictBlock_outside b pred n s (Bool.eq_false_iff.2 hc))

/-- A HostWrite that meets the conditions of R60 writes its cell. -/
theorem occur_hostWrite {a : SampleAddr} {s : State} (hb : s.busy = false) (ha : s.addressable a = true) (v : Sample) :
    occur (.hostWrite a v) s = .next (s.swrite a v) :=
  hostAccess_ok hb ha _

/-- A HostWrite that breaks a condition of R60 is refused. -/
theorem occur_hostWrite_refused {a : SampleAddr} {s : State} (h : s.busy = true ∨ s.addressable a = false)
    (v : Sample) : ∃ r, occur (.hostWrite a v) s = .refused r :=
  hostAccess_refused h _

/-- A HostRead that breaks a condition of R60 is refused. -/
theorem occur_hostRead_refused {a : SampleAddr} {s : State} (h : s.busy = true ∨ s.addressable a = false) :
    ∃ r, occur (.hostRead a) s = .refused r :=
  hostAccess_refused h _

end Sys2Proof.Machine

namespace Sys2Proof.Proofs

open Sys2Proof Sys2Proof.Machine

/-- Settles O27: a prediction changes no cell outside its block, and the mux reads none inside. -/
theorem neighboursLieOutsideTheBlock : Obligations.NeighboursLieOutsideTheBlock :=
  fun s _ _ _ _ pred n hfix =>
    mux_congr_outside (fun h => ⟨(hfix h).1, (hfix h).2.1⟩) ⟨rfl, rfl, rfl, rfl, rfl⟩ rfl
      fun _ ha => cell_predictBlock_outside _ pred n s ha

/-- Settles O51: a plane of a configured slot has a sample, so a clamped position lies in it. -/
theorem referenceReadsStayInThePlane : Obligations.ReferenceReadsStayInThePlane := by
  intro s ref p x y h hv
  obtain ⟨hw, hh⟩ := (h.slotsLegal ref).plane_pos hv p
  exact (addressable_iff s _).2 ⟨hv, toNat_clamp_lt x hw, toNat_clamp_lt y hh⟩

/-- Settles O54: a command changes cells of the block it predicts, which lies in the current raster, or of the slot it
configures. -/
theorem onlyTheCurrentRasterIsWritten : Obligations.OnlyTheCurrentRasterIsWritten := by
  intro i s t a ht hcfg hne
  rcases exec_changes_cell ht hne with ⟨dw, dh, hi⟩ | ⟨b, hb, ha⟩
  · exact absurd hi (hcfg dw dh)
  · obtain ⟨c, r, -, -, rfl⟩ := (b.contains_iff a).1 ha
    exact ⟨predictedBlock_fb hb, b, hb, ha⟩

/-- Settles O55: the scheduled access occurs, and has its effect under the conditions of R60 and is refused without
them. -/
theorem hostStepsAccessOneCell : Obligations.HostStepsAccessOneCell := by
  intro s a v rest
  refine ⟨fun hb ha => ⟨?_, ?_⟩, fun h => ⟨?_, ?_⟩⟩
  · exact ⟨_, (step_of_scheduled rfl).trans (occur_hostWrite (s := { s with schedule := rest }) hb ha v),
      cell_swrite_same _ a v, fun _ => cell_swrite_ne _ v, ⟨rfl, rfl, rfl, rfl, rfl⟩, ⟨rfl, rfl, rfl⟩, rfl, rfl, rfl⟩
  · exact ⟨_, _, (step_of_scheduled rfl).trans (occur_hostRead (s := { s with schedule := rest }) hb ha), rfl,
      fun _ hu => sread_of_written (s := s) hu 0, fun hn => sread_of_unwritten (s := s) hn 0,
      rfl, ⟨rfl, rfl, rfl, rfl, rfl⟩, ⟨rfl, rfl, rfl⟩, rfl, rfl, rfl⟩
  · exact (occur_hostWrite_refused (s := { s with schedule := rest }) h v).imp fun _ =>
      (step_of_scheduled rfl).trans
  · exact (occur_hostRead_refused (s := { s with schedule := rest }) h).imp fun _ => (step_of_scheduled rfl).trans

/-- Settles O60: each neighbour lies in a tile of the plane, so the cells that the mux reads are among those on which the
two states agree. -/
theorem neighbourReadsStayInThePlane : Obligations.NeighbourReadsStayInThePlane := by
  intro s p sub blk fix i h hv hblk hfix
  obtain ⟨hslot, hmx, hmy⟩ := h.macroblock_in_plane hv p
  obtain ⟨-, hbx, -, hby⟩ := geom_in_macroblock s p sub blk hblk
  obtain ⟨hx, hy⟩ := geom_aligned s p sub blk
  have hlow := (regionTile_bounds s p sub blk hfix).2
  have hright := regionTile_in_macroblock s p sub blk hblk hfix
  have hsize := geom_size_pos s p sub blk
  have hfb := geom_fb s p sub blk
  have hplane := geom_plane s p sub blk
  dsimp only
  generalize geom s p sub blk = b at *
  subst hplane
  rw [← hfb] at hslot hmx hmy
  generalize htile : regionTile s b fix = tile at *
  intro hi
  have hin : ∀ {x y}, x < (s.slot b.fb).planeW b.plane → y < (s.slot b.fb).planeH b.plane →
      s.addressable ⟨b.fb, b.plane, x, y⟩ = true := fun hx hy => (addressable_iff s _).2 ⟨hslot, hx, hy⟩
  have habove := fun _ : aPresent b = true =>
    hin (x := b.size * b.tileX + i) (y := b.size * b.tileY - 1) (by omega) (by omega)
  have hleft := fun _ : lPresent b = true =>
    hin (x := b.size * b.tileX - 1) (y := b.size * b.tileY + i) (by omega) (by omega)
  have hcorner := fun _ : alPresent b = true =>
    hin (x := b.size * b.tileX - 1) (y := b.size * b.tileY - 1) (by omega) (by omega)
  have har := fun hp : arPresent s b tile.1 tile.2 = true =>
    hin (y := b.size * tile.2 - 1) (aboveRight_lt_planeW hp hi) (by omega)
  have hbr := fun _ : 0 < tile.2 =>
    hin (x := b.size * tile.1 + b.size - 1) (y := b.size * tile.2 - 1) (by omega) (by omega)
  refine ⟨habove, hleft, hcorner, har, hbr, fun s' hc hd hk => ?_⟩
  simp only [mux, regionTile_congr hc, htile, arPresent_congr hc.1]
  exact ⟨muxAboveRow_congr hd hk habove, muxLeftColumn_congr hd hk hleft, muxAboveLeft_congr hd hk hcorner, trivial,
    fun hp => sread_congr hd (hk _ (har hp)) _, muxBr_congr hd hk hbr⟩

end Sys2Proof.Proofs
end

section
/-! PROOFS. The fields of a command word as decoder and encoder see them, the row of each command, the decoder's steps,
when a line of `copy` stands for a command, and the statements of spec/30_encoding.md. -/

namespace Sys2Proof

/-! ### Fields of a word -/

/-- `w[lo + len − 1 : lo]` by division and remainder (R8). -/
theorem bits_eq_ofNat (w : CommandWord) (lo len : Nat) : bits w lo len = BitVec.ofNat len (w.toNat / 2 ^ lo) :=
  bits_eq_of_toNat (BitVec.toNat_ofNat _ _).symm

theorem bits_zero_eq_ofNat (w : CommandWord) (len : Nat) : bits w 0 len = BitVec.ofNat len w.toNat := by
  rw [bits_eq_ofNat, pow_zero, Nat.div_one]

/-- OP as a number: no bit stands above it (R80). -/
theorem toNat_op (w : CommandWord) : (bits w 60 4).toNat = w.toNat / 2 ^ 60 := by
  rw [toNat_bits]
  exact Nat.mod_eq_of_lt (Nat.div_lt_of_lt_mul w.isLt)

/-- Two fields side by side are one field. -/
theorem bits_append_bits {w : CommandWord} {hi lo n m : Nat} (h : hi = lo + m) :
    bits w hi n ++ bits w lo m = bits w lo (n + m) :=
  BitVec.extractLsb'_append_extractLsb'_eq_extractLsb' h

theorem bits_all (w : CommandWord) : bits w 0 64 = w := BitVec.extractLsb'_eq_self

/-- Where a mask is all ones, a word has the bits of its masked value. -/
theorem bits_of_and_eq {w mask value : CommandWord} {lo len : Nat} (h : w &&& mask = value)
    (hmask : bits mask lo len = BitVec.allOnes len) : bits w lo len = bits value lo len := by
  rw [← h, bits, bits, BitVec.extractLsb'_and, ← bits, ← bits, hmask, BitVec.and_allOnes]

/-- Bits that a mask takes and that are 0 in the masked value are 0 in the word. -/
theorem and_eq_zero_of_and_eq {w mask value r : CommandWord} (h : w &&& mask = value) (hmask : mask &&& r = r)
    (hvalue : value &&& r = 0) : w &&& r = 0 := by
  rw [← hmask, ← BitVec.and_assoc, h, hvalue]

/-! ### Values of the fields (R81 to R93) -/

/-- The opcode of a format (R81). -/
def Format.op : Format → BitVec 4
  | .c => 1
  | .m => 2
  | .i => 3
  | .b => 4
  | .p => 5

theorem formatOf_eq_some {op : BitVec 4} {fmt : Format} : formatOf op = some fmt ↔ op = fmt.op := by
  revert op; cases fmt <;> decide

theorem formatOf_eq_none {op : BitVec 4} : formatOf op = none ↔ op.toNat = 0 ∨ 6 ≤ op.toNat := by
  revert op; decide

theorem exists_format_of_legal {op : Nat} (h1 : 1 ≤ op) (h5 : op ≤ 5) : ∃ fmt : Format, op = fmt.op.toNat := by
  interval_cases op
  exacts [⟨.c, rfl⟩, ⟨.m, rfl⟩, ⟨.i, rfl⟩, ⟨.b, rfl⟩, ⟨.p, rfl⟩]

/-- The format of a word whose OP is given by division (R81). -/
theorem formatOf_of_op {w : CommandWord} {fmt : Format} (h : w.toNat / 2 ^ 60 = fmt.op.toNat) :
    formatOf (bits w 60 4) = some fmt :=
  formatOf_eq_some.2 (BitVec.eq_of_toNat_eq ((toNat_op w).trans h))

theorem planeOf_eq_some {field : BitVec 2} {p : Plane} : planeOf field = some p ↔ planeField p = field := by
  revert field; cases p <;> decide

theorem planeOf_eq_none {field : BitVec 2} : planeOf field = none ↔ field.toNat = 3 := by
  revert field; decide

/-- A PLANE other than 3 is that of a plane (R90). -/
theorem exists_plane_of_ne_three {field : BitVec 2} (h : field.toNat ≠ 3) : ∃ p, planeField p = field :=
  (Option.ne_none_iff_exists'.1 (mt planeOf_eq_none.1 h)).imp fun _ => planeOf_eq_some.1

theorem ofBool_beq_one (x : BitVec 1) : BitVec.ofBool (x == 1) = x := by revert x; decide

theorem toNat_beq_one (x : BitVec 1) : (x.toNat == 1) = (x == 1) := by revert x; decide

/-- R93 with the fields as numbers. -/
theorem interBlkOk_iff_toNat {p : Plane} {sub : BitVec 1} {blk : BitVec 4} :
    interBlkOk p (sub == 1) blk = true ↔
      ¬((sub.toNat = 0 ∧ blk.toNat ≠ 0) ∨ (sub.toNat = 1 ∧ (planeField p).toNat ≠ 0 ∧ 3 < blk.toNat)) := by
  cases p <;> revert sub blk <;> decide

/-- R91 as a list in the order of MODE. -/
theorem getElem?_intraMbOf (mode : BitVec 2) :
    [Instr.intraMbDc, Instr.intraMbV, Instr.intraMbH, Instr.intraMbTm][mode.toNat]? = some (intraMbOf mode) := by
  match mode with
  | 0 | 1 | 2 | 3 => rfl

/-- R92 as a list in the order of BMODE. -/
theorem intraBOf_eq_getElem? (bmode blk : BitVec 4) :
    intraBOf bmode blk = [Instr.intraBDc, Instr.intraBTm, Instr.intraBVe, Instr.intraBHe, Instr.intraBLd,
      Instr.intraBRd, Instr.intraBVr, Instr.intraBVl, Instr.intraBHd, Instr.intraBHu][bmode.toNat]?.map (· blk) := by
  obtain ⟨⟨n, hn⟩⟩ := bmode
  interval_cases n <;> rfl

theorem encode_intraMbOf (mode : BitVec 2) (p : Plane) : encode (intraMbOf mode p) = encodeI p mode := by
  match mode with
  | 0 | 1 | 2 | 3 => rfl

theorem encode_of_intraBOf {bmode blk : BitVec 4} {i : Instr} (h : intraBOf bmode blk = some i) :
    encode i = encodeB blk bmode := by
  match bmode with
  | 0 | 1 | 2 | 3 | 4 | 5 | 6 | 7 | 8 | 9 => cases h; rfl

/-! ### The decoder's steps (R95) -/

theorem decode_of_no_format {w : CommandWord} (h : formatOf (bits w 60 4) = none) :
    decode w = .error .illegalOpcode := by
  simp only [decode, h]

theorem decode_of_format {w : CommandWord} {fmt : Format} (h : formatOf (bits w 60 4) = some fmt) :
    decode w = if w &&& reservedMask fmt = 0 then decodeFields fmt w else .error .reservedBits := by
  simp only [decode, h]

theorem decode_of_reserved_bit {w : CommandWord} {fmt : Format} (h : formatOf (bits w 60 4) = some fmt)
    (hr : w &&& reservedMask fmt ≠ 0) : decode w = .error .reservedBits :=
  (decode_of_format h).trans (if_neg hr)

theorem decode_eq_decodeFields {w : CommandWord} {fmt : Format} (h : formatOf (bits w 60 4) = some fmt)
    (hr : w &&& reservedMask fmt = 0) : decode w = decodeFields fmt w :=
  (decode_of_format h).trans (if_pos hr)

/-- A word that decodes has a format, no reserved bit at 1, and fields that the format takes. -/
theorem decode_eq_ok {w : CommandWord} {i : Instr} (h : decode w = .ok i) :
    ∃ fmt, bits w 60 4 = fmt.op ∧ w &&& reservedMask fmt = 0 ∧ decodeFields fmt w = .ok i := by
  cases hf : formatOf (bits w 60 4) with
  | none => cases (decode_of_no_format hf).symm.trans h
  | some fmt =>
    by_cases hr : w &&& reservedMask fmt = 0
    · exact ⟨fmt, formatOf_eq_some.1 hf, hr, (decode_eq_decodeFields hf hr).symm.trans h⟩
    · cases (decode_of_reserved_bit hf hr).symm.trans h

theorem decodeI_of_plane {w : CommandWord} {p : Plane} (h : planeField p = bits w 54 2) :
    decodeI w = .ok (intraMbOf (bits w 0 2) p) := by
  simp only [decodeI, planeOf_eq_some.2 h]

theorem decodeI_of_no_plane {w : CommandWord} (h : (bits w 54 2).toNat = 3) : decodeI w = .error .badPlane := by
  simp only [decodeI, planeOf_eq_none.2 h]

theorem decodeB_of_mode {w : CommandWord} {i : Instr} (h : intraBOf (bits w 0 4) (bits w 48 4) = some i) :
    decodeB w = .ok i := by
  simp only [decodeB, h]

theorem decodeB_of_no_mode {w : CommandWord} (h : intraBOf (bits w 0 4) (bits w 48 4) = none) :
    decodeB w = .error .badMode := by
  simp only [decodeB, h]

theorem decodeP_of_no_plane {w : CommandWord} (h : (bits w 54 2).toNat = 3) : decodeP w = .error .badPlane := by
  simp only [decodeP, planeOf_eq_none.2 h]

theorem decodeP_of_plane {w : CommandWord} {p : Plane} (h : planeField p = bits w 54 2) :
    decodeP w = if interBlkOk p (bits w 52 1 == 1) (bits w 48 4) then
      .ok (.inter (bits w 56 2) p (bits w 52 1 == 1) (bits w 48 4) (bits w 16 16) (bits w 0 16))
      else .error .badBlock := by
  simp only [decodeP, planeOf_eq_some.2 h]

/-! ### A word with the opcode and the reserved bits of a format is the encoding of its fields -/

theorem encodeC_bits {w : CommandWord} (hop : bits w 60 4 = 1) (hr : w &&& reservedMask .c = 0) :
    encodeC (bits w 56 2) (bits w 14 14) (bits w 0 14) = w := by
  have h58 : bits w 58 2 = 0 := bits_of_and_eq hr rfl
  have h28 : bits w 28 28 = 0 := bits_of_and_eq hr rfl
  calc encodeC (bits w 56 2) (bits w 14 14) (bits w 0 14)
      = bits w 60 4 ++ bits w 58 2 ++ bits w 56 2 ++ bits w 28 28 ++ bits w 14 14 ++ bits w 0 14 := by
        rw [hop, h58, h28]; rfl
    _ = bits w 0 64 := by simp (disch := decide) only [bits_append_bits]
    _ = w := bits_all w

theorem encodeM_bits {w : CommandWord} (hop : bits w 60 4 = 2) (hr : w &&& reservedMask .m = 0) :
    encodeM (bits w 56 2) (bits w 16 10) (bits w 0 10) = w := by
  have h58 : bits w 58 2 = 0 := bits_of_and_eq hr rfl
  have h26 : bits w 26 30 = 0 := bits_of_and_eq hr rfl
  have h10 : bits w 10 6 = 0 := bits_of_and_eq hr rfl
  calc encodeM (bits w 56 2) (bits w 16 10) (bits w 0 10)
      = bits w 60 4 ++ bits w 58 2 ++ bits w 56 2 ++ bits w 26 30 ++ bits w 16 10 ++ bits w 10 6 ++ bits w 0 10 := by
        rw [hop, h58, h26, h10]; rfl
    _ = bits w 0 64 := by simp (disch := decide) only [bits_append_bits]
    _ = w := bits_all w

theorem encodeI_bits {w : CommandWord} {p : Plane} (hop : bits w 60 4 = 3) (hr : w &&& reservedMask .i = 0)
    (hp : planeField p = bits w 54 2) : encodeI p (bits w 0 2) = w := by
  have h56 : bits w 56 4 = 0 := bits_of_and_eq hr rfl
  have h2 : bits w 2 52 = 0 := bits_of_and_eq hr rfl
  calc encodeI p (bits w 0 2)
      = bits w 60 4 ++ bits w 56 4 ++ bits w 54 2 ++ bits w 2 52 ++ bits w 0 2 := by
        rw [hop, h56, h2, ← hp]; rfl
    _ = bits w 0 64 := by simp (disch := decide) only [bits_append_bits]
    _ = w := bits_all w

theorem encodeB_bits {w : CommandWord} (hop : bits w 60 4 = 4) (hr : w &&& reservedMask .b = 0) :
    encodeB (bits w 48 4) (bits w 0 4) = w := by
  have h52 : bits w 52 8 = 0 := bits_of_and_eq hr rfl
  have h4 : bits w 4 44 = 0 := bits_of_and_eq hr rfl
  calc encodeB (bits w 48 4) (bits w 0 4)
      = bits w 60 4 ++ bits w 52 8 ++ bits w 48 4 ++ bits w 4 44 ++ bits w 0 4 := by
        rw [hop, h52, h4]; rfl
    _ = bits w 0 64 := by simp (disch := decide) only [bits_append_bits]
    _ = w := bits_all w

theorem encodeP_bits {w : CommandWord} {p : Plane} (hop : bits w 60 4 = 5) (hr : w &&& reservedMask .p = 0)
    (hp : planeField p = bits w 54 2) :
    encodeP (bits w 56 2) p (bits w 52 1 == 1) (bits w 48 4) (bits w 16 16) (bits w 0 16) = w := by
  have h58 : bits w 58 2 = 0 := bits_of_and_eq hr rfl
  have h53 : bits w 53 1 = 0 := bits_of_and_eq hr rfl
  have h32 : bits w 32 16 = 0 := bits_of_and_eq hr rfl
  calc encodeP (bits w 56 2) p (bits w 52 1 == 1) (bits w 48 4) (bits w 16 16) (bits w 0 16)
      = bits w 60 4 ++ bits w 58 2 ++ bits w 56 2 ++ bits w 54 2 ++ bits w 53 1 ++ bits w 52 1 ++ bits w 48 4 ++
          bits w 32 16 ++ bits w 16 16 ++ bits w 0 16 := by
        rw [hop, h58, h53, h32, ← hp, encodeP, ofBool_beq_one]; rfl
    _ = bits w 0 64 := by simp (disch := decide) only [bits_append_bits]
    _ = w := bits_all w

/-! ### The fields of an encoded word are its operands -/

theorem bits_encodeC (fb : Slot) (dw dh : BitVec 14) :
    bits (encodeC fb dw dh) 56 2 = fb ∧ bits (encodeC fb dw dh) 14 14 = dw ∧ bits (encodeC fb dw dh) 0 14 = dh := by
  simp (disch := decide) only [bits, encodeC, BitVec.extractLsb'_append_eq_of_add_le,
    BitVec.extractLsb'_append_eq_of_le, Nat.reduceSub, BitVec.extractLsb'_eq_self, and_self]

theorem bits_encodeM (fb : Slot) (mbx mby : BitVec 10) :
    bits (encodeM fb mbx mby) 56 2 = fb ∧ bits (encodeM fb mbx mby) 16 10 = mbx ∧
      bits (encodeM fb mbx mby) 0 10 = mby := by
  simp (disch := decide) only [bits, encodeM, BitVec.extractLsb'_append_eq_of_add_le,
    BitVec.extractLsb'_append_eq_of_le, Nat.reduceSub, BitVec.extractLsb'_eq_self, and_self]

theorem bits_encodeI (plane : Plane) (mode : BitVec 2) :
    bits (encodeI plane mode) 54 2 = planeField plane ∧ bits (encodeI plane mode) 0 2 = mode := by
  simp (disch := decide) only [bits, encodeI, BitVec.extractLsb'_append_eq_of_add_le,
    BitVec.extractLsb'_append_eq_of_le, Nat.reduceSub, BitVec.extractLsb'_eq_self, and_self]

theorem bits_encodeB (blk bmode : BitVec 4) :
    bits (encodeB blk bmode) 48 4 = blk ∧ bits (encodeB blk bmode) 0 4 = bmode := by
  simp (disch := decide) only [bits, encodeB, BitVec.extractLsb'_append_eq_of_add_le,
    BitVec.extractLsb'_append_eq_of_le, Nat.reduceSub, BitVec.extractLsb'_eq_self, and_self]

theorem bits_encodeP (ref : Slot) (plane : Plane) (sub : Bool) (blk : BitVec 4) (mvx mvy : BitVec 16) :
    bits (encodeP ref plane sub blk mvx mvy) 56 2 = ref ∧
      bits (encodeP ref plane sub blk mvx mvy) 54 2 = planeField plane ∧
      bits (encodeP ref plane sub blk mvx mvy) 52 1 = BitVec.ofBool sub ∧
      bits (encodeP ref plane sub blk mvx mvy) 48 4 = blk ∧
      bits (encodeP ref plane sub blk mvx mvy) 16 16 = mvx ∧
      bits (encodeP ref plane sub blk mvx mvy) 0 16 = mvy := by
  simp (disch := decide) only [bits, encodeP, BitVec.extractLsb'_append_eq_of_add_le,
    BitVec.extractLsb'_append_eq_of_le, Nat.reduceSub, BitVec.extractLsb'_eq_self, and_self]

theorem decodeC_encodeC (fb : Slot) (dw dh : BitVec 14) : decodeC (encodeC fb dw dh) = .ok (.cfgRaster fb dw dh) := by
  obtain ⟨hfb, hdw, hdh⟩ := bits_encodeC fb dw dh
  rw [decodeC, hfb, hdw, hdh]

theorem decodeM_encodeM (fb : Slot) (mbx mby : BitVec 10) :
    decodeM (encodeM fb mbx mby) = .ok (.beginMb fb mbx mby) := by
  obtain ⟨hfb, hx, hy⟩ := bits_encodeM fb mbx mby
  rw [decodeM, hfb, hx, hy]

theorem decodeI_encodeI (plane : Plane) (mode : BitVec 2) :
    decodeI (encodeI plane mode) = .ok (intraMbOf mode plane) := by
  obtain ⟨hp, hm⟩ := bits_encodeI plane mode
  rw [decodeI_of_plane hp.symm, hm]

theorem decodeB_encodeB {blk bmode : BitVec 4} {i : Instr} (h : intraBOf bmode blk = some i) :
    decodeB (encodeB blk bmode) = .ok i := by
  obtain ⟨hb, hm⟩ := bits_encodeB blk bmode
  exact decodeB_of_mode (by rw [hb, hm, h])

theorem decodeP_encodeP {ref : Slot} {plane : Plane} {sub : Bool} {blk : BitVec 4} {mvx mvy : BitVec 16}
    (h : interBlkOk plane sub blk = true) :
    decodeP (encodeP ref plane sub blk mvx mvy) = .ok (.inter ref plane sub blk mvx mvy) := by
  obtain ⟨href, hp, hs, hb, hx, hy⟩ := bits_encodeP ref plane sub blk mvx mvy
  have hsub : (BitVec.ofBool sub == 1) = sub := by cases sub <;> rfl
  rw [decodeP_of_plane hp.symm, href, hs, hb, hx, hy, hsub, if_pos h]

/-! ### The row of a command gives its format (R96) -/

/-- The format of a command (R96). -/
def Instr.format : Instr → Format
  | .cfgRaster .. => .c
  | .beginMb .. => .m
  | .intraMbDc _ | .intraMbV _ | .intraMbH _ | .intraMbTm _ => .i
  | .intraBDc _ | .intraBTm _ | .intraBVe _ | .intraBHe _ | .intraBLd _ | .intraBRd _ | .intraBVr _ | .intraBVl _
  | .intraBHd _ | .intraBHu _ => .b
  | .inter .. => .p

/-- The word of every command matches the command's row. -/
theorem encode_matches_row (i : Instr) : Laws.OpcodeRow.Statement i := by
  cases i with
  | cfgRaster => exact Laws.OpcodeRow.cfgRaster _ _ _
  | beginMb => exact Laws.OpcodeRow.beginMb _ _ _
  | intraMbDc => exact Laws.OpcodeRow.intraMbDc _
  | intraMbV => exact Laws.OpcodeRow.intraMbV _
  | intraMbH => exact Laws.OpcodeRow.intraMbH _
  | intraMbTm => exact Laws.OpcodeRow.intraMbTm _
  | intraBDc => exact Laws.OpcodeRow.intraBDc _
  | intraBTm => exact Laws.OpcodeRow.intraBTm _
  | intraBVe => exact Laws.OpcodeRow.intraBVe _
  | intraBHe => exact Laws.OpcodeRow.intraBHe _
  | intraBLd => exact Laws.OpcodeRow.intraBLd _
  | intraBRd => exact Laws.OpcodeRow.intraBRd _
  | intraBVr => exact Laws.OpcodeRow.intraBVr _
  | intraBVl => exact Laws.OpcodeRow.intraBVl _
  | intraBHd => exact Laws.OpcodeRow.intraBHd _
  | intraBHu => exact Laws.OpcodeRow.intraBHu _
  | inter => exact Laws.OpcodeRow.inter _ _ _ _ _ _

/-- The mask of a row takes OP and every reserved bit of the format, and the match has the format's opcode and no
reserved bit. -/
theorem row_has_format (i : Instr) :
    bits (Laws.OpcodeRow.row i).1 60 4 = BitVec.allOnes 4 ∧ bits (Laws.OpcodeRow.row i).2 60 4 = i.format.op ∧
      (Laws.OpcodeRow.row i).1 &&& reservedMask i.format = reservedMask i.format ∧
      (Laws.OpcodeRow.row i).2 &&& reservedMask i.format = 0 := by
  cases i <;> dsimp only [Laws.OpcodeRow.row, Instr.format] <;> decide

/-- The decoder reads the word of a command by the command's format. -/
theorem decode_encode_eq_decodeFields (i : Instr) : decode (encode i) = decodeFields i.format (encode i) := by
  have hrow := encode_matches_row i
  obtain ⟨hmask, hop, hreserved, hzero⟩ := row_has_format i
  exact decode_eq_decodeFields (formatOf_eq_some.2 ((bits_of_and_eq hrow hmask).trans hop))
    (and_eq_zero_of_and_eq hrow hreserved hzero)

/-- A word that decodes is the word of the command. -/
theorem encode_of_decode {w : CommandWord} {i : Instr} (h : decode w = .ok i) : encode i = w := by
  obtain ⟨fmt, hop, hr, hi⟩ := decode_eq_ok h
  cases fmt with
  | c => cases hi; exact encodeC_bits hop hr
  | m => cases hi; exact encodeM_bits hop hr
  | i =>
    cases hp : planeOf (bits w 54 2) with
    | none => cases (decodeI_of_no_plane (planeOf_eq_none.1 hp)).symm.trans hi
    | some p =>
      have hp := planeOf_eq_some.1 hp
      cases (decodeI_of_plane hp).symm.trans hi
      exact (encode_intraMbOf _ _).trans (encodeI_bits hop hr hp)
  | b =>
    cases hb : intraBOf (bits w 0 4) (bits w 48 4) with
    | none => cases (decodeB_of_no_mode hb).symm.trans hi
    | some j =>
      cases (decodeB_of_mode hb).symm.trans hi
      exact (encode_of_intraBOf hb).trans (encodeB_bits hop hr)
  | p =>
    cases hp : planeOf (bits w 54 2) with
    | none => cases (decodeP_of_no_plane (planeOf_eq_none.1 hp)).symm.trans hi
    | some p =>
      have hp := planeOf_eq_some.1 hp
      have hi := (decodeP_of_plane hp).symm.trans hi
      split at hi
      · cases hi; exact encodeP_bits hop hr hp
      · cases hi

end Sys2Proof

namespace Sys2Proof.Machine

/-! ### When a line of `inter` or `copy` stands for a command (R93, R97, R98) -/

theorem isSome_mvField {v : Int} : (mvField v).isSome = true ↔ -32768 ≤ v ∧ v ≤ 32767 := by
  simp [Option.isSome_iff_exists, mvField_eq_some]

/-- When a line of `inter` stands for a command (R97). -/
theorem isSome_assembleInter {p : Plane} {b : AsmBlock} {ref : Slot} {x y : Int} :
    (assembleInter p b ref x y).isSome = true ↔
      (∃ sub blk, asmBlockFields b = some (sub, blk) ∧ interBlkOk p sub blk = true) ∧
        (-32768 ≤ x ∧ x ≤ 32767) ∧ (-32768 ≤ y ∧ y ≤ 32767) := by
  simp only [Option.isSome_iff_exists, assembleInter_eq_some, ← isSome_mvField]
  constructor
  · rintro ⟨_, sub, blk, mvx, mvy, hb, hx, hy, hok, -⟩
    exact ⟨⟨sub, blk, hb, hok⟩, ⟨mvx, hx⟩, ⟨mvy, hy⟩⟩
  · rintro ⟨⟨sub, blk, hb, hok⟩, ⟨mvx, hx⟩, ⟨mvy, hy⟩⟩
    exact ⟨_, sub, blk, mvx, mvy, hb, hx, hy, hok, rfl⟩

theorem asmBlockFields_sub {k : Nat} (h : k < 16) : asmBlockFields (.sub k) = some (true, BitVec.ofNat 4 k) := by
  rw [asmBlockFields, natField_eq_some.2 ⟨h, rfl⟩, Option.map_some]

theorem lt_of_asmBlockFields_sub {k : Nat} {f : Bool × BitVec 4} (h : asmBlockFields (.sub k) = some f) : k < 16 := by
  obtain ⟨_, hk, -⟩ := Option.map_eq_some_iff.1 h
  exact (natField_eq_some.1 hk).1

/-- The BLK that `sub BLK` takes on a plane (R93). -/
theorem exists_sub_block {p : Plane} {k : Nat} :
    (∃ sub blk, asmBlockFields (.sub k) = some (sub, blk) ∧ interBlkOk p sub blk = true) ↔
      k ≤ if p = .y then 15 else 3 := by
  by_cases hk : k < 16
  · have hblk : (BitVec.ofNat 4 k).toNat = k := by rw [BitVec.toNat_ofNat]; omega
    cases p with
    | y => simpa [asmBlockFields_sub hk, interBlkOk] using Nat.le_of_lt_succ hk
    | u | v => simp [asmBlockFields_sub hk, interBlkOk, hblk]
  · refine iff_of_false (fun ⟨_, _, h, _⟩ => hk (lt_of_asmBlockFields_sub h)) ?_
    split <;> omega

/-- A component of 8·d eighths has the integer part d and phase 0 (R203). -/
theorem mvInt_mvPhase_of_mvField {d : Int} {mv : BitVec 16} (h : mvField (8 * d) = some mv) :
    mvInt mv = d ∧ mvPhase mv = 0 := by
  have hs : sext16 mv = 8 * d := toInt_of_mvField h
  rw [mvInt, mvPhase, sar, hs]
  omega

end Sys2Proof.Machine

namespace Sys2Proof.Proofs

open Sys2Proof Sys2Proof.Machine

/-- Settles O8: the row of the command gives its format, and each field of the word is the operand put there. -/
theorem decodeOfEncodeIsTheCommand : Obligations.DecodeOfEncodeIsTheCommand := by
  intro i hi
  rw [decode_encode_eq_decodeFields]
  cases i with
  | cfgRaster fb dw dh => exact decodeC_encodeC fb dw dh
  | beginMb fb mbx mby => exact decodeM_encodeM fb mbx mby
  | intraMbDc p | intraMbV p | intraMbH p | intraMbTm p => exact decodeI_encodeI p _
  | intraBDc blk | intraBTm blk | intraBVe blk | intraBHe blk | intraBLd blk | intraBRd blk | intraBVr blk
  | intraBVl blk | intraBHd blk | intraBHu blk => exact decodeB_encodeB rfl
  | inter ref p sub blk mvx mvy => exact decodeP_encodeP hi

/-- Settles O7: the decoder's step for the opcode, with each quotient and remainder of the word read as its field. -/
theorem decoderFollowsItsSteps : Obligations.DecoderFollowsItsSteps := by
  intro w
  have hplane : w.toNat / 2 ^ 54 % 4 = (bits w 54 2).toNat := (toNat_bits w 54 2).symm
  have hsub : w.toNat / 2 ^ 52 % 2 = (bits w 52 1).toNat := (toNat_bits w 52 1).symm
  have hblk : w.toNat / 2 ^ 48 % 16 = (bits w 48 4).toNat := (toNat_bits w 48 4).symm
  have hmode : w.toNat % 4 = (bits w 0 2).toNat := by rw [bits_zero_eq_ofNat, BitVec.toNat_ofNat]
  have hbmode : w.toNat % 16 = (bits w 0 4).toNat := by rw [bits_zero_eq_ofNat, BitVec.toNat_ofNat]
  simp only [hplane, hsub, hblk, hmode, hbmode, ← bits_eq_ofNat, ← bits_zero_eq_ofNat, BitVec.ofNat_toNat,
    BitVec.setWidth_eq, toNat_beq_one]
  refine ⟨fun h => ?illegal, fun h1 h5 hr => ?reserved, fun _ _ hr =>
    ⟨fun h => ?c, fun h => ?m, fun h => ?i, fun h => ?b, fun h => ?p⟩⟩
  case illegal => exact decode_of_no_format (formatOf_eq_none.2 (by rwa [toNat_op]))
  case reserved =>
    obtain ⟨fmt, hop⟩ := exists_format_of_legal h1 h5
    rw [hop] at hr
    refine decode_of_reserved_bit (formatOf_of_op hop) ?_
    cases fmt <;> exact hr
  all_goals rw [h] at hr
  case c => exact decode_eq_decodeFields (fmt := .c) (formatOf_of_op h) hr
  case m => exact decode_eq_decodeFields (fmt := .m) (formatOf_of_op h) hr
  case i =>
    rw [decode_eq_decodeFields (fmt := .i) (formatOf_of_op h) hr, getElem?_intraMbOf]
    refine ⟨decodeI_of_no_plane, fun p mk hp hmk => ?_⟩
    cases hmk
    exact decodeI_of_plane (BitVec.eq_of_toNat_eq hp)
  case b =>
    rw [decode_eq_decodeFields (fmt := .b) (formatOf_of_op h) hr]
    have htable := intraBOf_eq_getElem? (bits w 0 4) (bits w 48 4)
    refine ⟨fun hm => decodeB_of_no_mode ?_, fun mk hmk => decodeB_of_mode ?_⟩
    · rw [htable, List.getElem?_eq_none hm, Option.map_none]
    · rw [htable, hmk, Option.map_some]
  case p =>
    rw [decode_eq_decodeFields (fmt := .p) (formatOf_of_op h) hr]
    refine ⟨decodeP_of_no_plane, fun hp hbad => ?_, fun p hp hok => ?_⟩
    · obtain ⟨p, hp⟩ := exists_plane_of_ne_three hp
      rw [← hp] at hbad
      exact (decodeP_of_plane hp).trans (if_neg fun hok => interBlkOk_iff_toNat.1 hok hbad)
    · rw [← hp] at hok
      exact (decodeP_of_plane (BitVec.eq_of_toNat_eq hp)).trans (if_pos (interBlkOk_iff_toNat.2 hok))

/-- Settles O9: such a word is the concatenation of its fields, which are those of the command. -/
theorem encodeOfDecodeIsTheWord : Obligations.EncodeOfDecodeIsTheWord :=
  fun _ _ h => ⟨wellFormed_of_decode h, encode_of_decode h⟩

/-- Settles O10: 8·DX and 8·DY fit their fields in just those ranges, and eighths that are a multiple of 8 have no
phase. -/
theorem copyIsAnIntegerDisplacement : Obligations.CopyIsAnIntegerDisplacement := by
  refine ⟨fun _ _ _ _ _ => rfl, fun p ref dx dy => ?_, fun p blk ref dx dy => ?_, fun p b ref dx dy i h => ?_⟩
  · rw [assemble, isSome_assembleInter]
    have hmb : ∃ sub blk, asmBlockFields .mb = some (sub, blk) ∧ interBlkOk p sub blk = true := ⟨false, 0, rfl, rfl⟩
    simp only [hmb, true_and]
    omega
  · rw [assemble, isSome_assembleInter, exists_sub_block]
    omega
  · obtain ⟨sub, blk, mvx, mvy, -, hx, hy, -, hi⟩ := assembleInter_eq_some.1 h
    obtain ⟨hxi, hxp⟩ := mvInt_mvPhase_of_mvField hx
    obtain ⟨hyi, hyp⟩ := mvInt_mvPhase_of_mvField hy
    exact ⟨sub, blk, mvx, mvy, hi, hxp, hyp, hxi, hyi⟩

/-- Settles O6: the assembler and the decoder run on the five examples. -/
theorem encodingExamplesDecode : Obligations.EncodingExamplesDecode := by
  unfold Obligations.EncodingExamplesDecode
  decide

end Sys2Proof.Proofs
end

section
/-! PROOFS. The equations of CFG_RASTER and BEGIN_MB, what the end and the beginning of a raster leave in the slots and in
the store, and the statements of spec/40_raster_and_macroblock.md. -/

namespace Sys2Proof.Machine

/-! ### The end and the beginning of a raster (R112) -/

theorem slot_endRaster (s : State) (f g : Slot) :
    (endRaster f s).slot g = if g = f then FbSlot.reset else s.slot g :=
  slot_setSlot s f g FbSlot.reset

theorem cell_endRaster (s : State) (f : Slot) (a : SampleAddr) :
    (endRaster f s).cell a = if a.fb = f then none else s.cell a :=
  cell_clearSlot s f a

/-- The context is given up just when its raster ends. -/
theorem endRaster_mbValid_eq_ite (s : State) (f : Slot) :
    (endRaster f s).mbValid = if s.mbFb = f then false else s.mbValid := by
  rw [endRaster_mbValid]
  by_cases h : s.mbFb = f <;> simp [h]

theorem slot_beginRaster (s : State) (f g : Slot) (dw dh : BitVec 14) :
    (beginRaster f dw dh s).slot g = if g = f then ⟨true, dw, dh⟩ else s.slot g :=
  slot_setSlot s f g ⟨true, dw, dh⟩

/-! ### The equations of CFG_RASTER (R112) -/

theorem execCfgRaster_of_supported {dw dh : BitVec 14} (hw : dw.toNat % 2 = 0) (hh : dh.toNat % 2 = 0)
    (hw0 : dw.toNat ≠ 0) (hh0 : dh.toNat ≠ 0) (f : Slot) (s : State) :
    execCfgRaster f dw dh s = .next (beginRaster f dw dh (endRaster f s)) := by
  simp [execCfgRaster, hw, hh, hw0, hh0]

/-- Parity is checked before zero (R231). -/
theorem execCfgRaster_of_unsupported {dw dh : BitVec 14}
    (h : dw.toNat % 2 = 1 ∨ dh.toNat % 2 = 1 ∨ dw.toNat = 0 ∨ dh.toNat = 0) (f : Slot) (s : State) :
    execCfgRaster f dw dh s =
      .next { endRaster f s with cfgErr := if dw.toNat % 2 = 1 ∨ dh.toNat % 2 = 1 then 1 else 2 } := by
  by_cases hodd : dw.toNat % 2 = 1 ∨ dh.toNat % 2 = 1
  · rw [execCfgRaster, if_pos hodd, if_pos hodd]; rfl
  · have hzero : dw.toNat = 0 ∨ dh.toNat = 0 := (or_assoc.2 h).resolve_left hodd
    rw [execCfgRaster, if_neg hodd, if_pos hzero, if_neg hodd]; rfl

/-! ### The equations of BEGIN_MB (R114) -/

section
variable {f : Slot} {x y : BitVec 10} {s : State}

theorem execBeginMb_of_unconfigured (hv : (s.slot f).valid = false) :
    execBeginMb f x y s = .next (raiseLogicFault .fbNotConfigured (encode (.beginMb f x y)) s) :=
  if_pos hv

theorem execBeginMb_of_out_of_grid (hv : (s.slot f).valid = true)
    (hout : (s.slot f).mbW ≤ x.toNat ∨ (s.slot f).mbH ≤ y.toNat) :
    execBeginMb f x y s = .next (raiseLogicFault .mbOutOfRange (encode (.beginMb f x y)) s) := by
  simp [execBeginMb, hv, hout]

theorem execBeginMb_of_in_grid (hv : (s.slot f).valid = true) (hx : x.toNat < (s.slot f).mbW)
    (hy : y.toNat < (s.slot f).mbH) : execBeginMb f x y s = .next (setContext f x y s) := by
  simp [execBeginMb, hv, hx, hy]

end

end Sys2Proof.Machine

namespace Sys2Proof.Proofs

open Sys2Proof Sys2Proof.Machine

/-- Settles O18: the new raster of the slot stands on the ended one, which has no cell and no context. -/
theorem cfgRasterConfiguresTheSlot : Obligations.CfgRasterConfiguresTheSlot := by
  intro f dw dh s hw hh hw0 hh0
  exact ⟨_, execCfgRaster_of_supported hw hh hw0 hh0 f s,
    (slot_beginRaster _ f f dw dh).trans (if_pos rfl), rfl,
    fun a ha => (cell_endRaster s f a).trans (if_pos ha), endRaster_mbValid_eq_ite s f,
    fun g hg => by rw [slot_beginRaster, if_neg hg, slot_endRaster, if_neg hg],
    fun a ha => (cell_endRaster s f a).trans (if_neg ha), rfl, rfl, rfl, ⟨rfl, rfl, rfl⟩, rfl, ⟨rfl, rfl, rfl⟩, rfl⟩

/-- Settles O19: CFG_ERR aside, the state is that in which the slot's raster has ended. -/
theorem cfgRasterReportsUnsupportedInput : Obligations.CfgRasterReportsUnsupportedInput := by
  intro f dw dh s h
  exact ⟨_, execCfgRaster_of_unsupported h f s, rfl, (slot_endRaster s f f).trans (if_pos rfl),
    fun a ha => (cell_endRaster s f a).trans (if_pos ha), endRaster_mbValid_eq_ite s f,
    fun g hg => (slot_endRaster s f g).trans (if_neg hg),
    fun a ha => (cell_endRaster s f a).trans (if_neg ha), rfl, rfl, rfl, ⟨rfl, rfl, rfl⟩, rfl, ⟨rfl, rfl, rfl⟩, rfl⟩

/-- Settles O21: both checks pass, and the context registers are all that `setContext` writes. -/
theorem beginMbSetsTheContext : Obligations.BeginMbSetsTheContext := by
  intro f x y s hv hx hy
  exact ⟨_, execBeginMb_of_in_grid hv hx hy, rfl, rfl, rfl, rfl, rfl, rfl, ⟨rfl, rfl, rfl⟩, rfl, rfl, ⟨rfl, rfl, rfl⟩, rfl⟩

/-- Settles O22: each failed check raises its LogicFault, whose code is that of R232. -/
theorem beginMbChecksItsOperands : Obligations.BeginMbChecksItsOperands := by
  intro f x y s
  exact ⟨fun hv => faultsWith_of_raise (i := .beginMb f x y) (k := .fbNotConfigured) (execBeginMb_of_unconfigured hv),
    fun hv hout =>
      faultsWith_of_raise (i := .beginMb f x y) (k := .mbOutOfRange) (execBeginMb_of_out_of_grid hv hout)⟩

end Sys2Proof.Proofs
end

section
/-! PROOFS. Presence of the neighbours in positions of the plane, the fix-up, the three cases of the above-right region,
and the statements of spec/41_neighbour_mux.md. -/

namespace Sys2Proof.Machine

/-! ### Presence, in positions of the plane (R131) -/

section
variable (s : State) (p : Plane) (sub : Bool) (blk : BitVec 4)

/-- A block has an above neighbour just when it starts below the top edge. -/
theorem aPresent_geom : aPresent (geom s p sub blk) = true ↔ (geom s p sub blk).y0 ≠ 0 := by
  rw [aPresent, decide_eq_true_iff, ← Nat.pos_iff_ne_zero, ← (geom_aligned s p sub blk).2]
  exact (Nat.mul_pos_iff_of_pos_left (geom_size_pos s p sub blk)).symm

/-- A block has a left neighbour just when it starts right of the left edge. -/
theorem lPresent_geom : lPresent (geom s p sub blk) = true ↔ (geom s p sub blk).x0 ≠ 0 := by
  rw [lPresent, decide_eq_true_iff, ← Nat.pos_iff_ne_zero, ← (geom_aligned s p sub blk).1]
  exact (Nat.mul_pos_iff_of_pos_left (geom_size_pos s p sub blk)).symm

/-- A plane is a whole number of tiles wide, so a tile has a right neighbour just when it ends before the plane does
(R53). -/
theorem succ_lt_gridW_geom (tx : Nat) : tx + 1 < gridW s (geom s p sub blk) ↔
    (geom s p sub blk).size * (tx + 1) < (s.slot s.mbFb).planeW p := by
  have hdvd : (geom s p sub blk).size ∣ (s.slot s.mbFb).planeW p :=
    (geom_size_dvd s p sub blk).mul_right _
  rw [gridW, geom_fb, geom_plane, Nat.lt_div_iff_mul_lt_of_dvd (geom_size_pos s p sub blk).ne' hdvd, Nat.mul_comm]

/-- A block has an above-right neighbour just when it starts below the top edge and ends before the right one. -/
theorem arPresent_geom :
    arPresent s (geom s p sub blk) (geom s p sub blk).tileX (geom s p sub blk).tileY = true ↔
      (geom s p sub blk).y0 ≠ 0 ∧
        (geom s p sub blk).x0 + (geom s p sub blk).size < (s.slot s.mbFb).planeW p := by
  rw [arPresent_iff, succ_lt_gridW_geom, Nat.mul_succ, (geom_aligned s p sub blk).1, ← aPresent_geom, aPresent,
    decide_eq_true_iff]

/-! ### The neighbours, in positions of the plane (R132 to R134) -/

theorem muxAboveRow_geom (i : Nat) : muxAboveRow s (geom s p sub blk) i =
    if (geom s p sub blk).y0 = 0 then 127
    else s.sread i ⟨s.mbFb, p, (geom s p sub blk).x0 + i, (geom s p sub blk).y0 - 1⟩ := by
  obtain ⟨hx, hy⟩ := geom_aligned s p sub blk
  rw [muxAboveRow, hx, hy, geom_fb, geom_plane, if_congr (aPresent_geom s p sub blk) rfl rfl, ite_not]
  rfl

theorem muxLeftColumn_geom (i : Nat) : muxLeftColumn s (geom s p sub blk) i =
    if (geom s p sub blk).x0 = 0 then 129
    else s.sread ((geom s p sub blk).size + i)
      ⟨s.mbFb, p, (geom s p sub blk).x0 - 1, (geom s p sub blk).y0 + i⟩ := by
  obtain ⟨hx, hy⟩ := geom_aligned s p sub blk
  rw [muxLeftColumn, hx, hy, geom_fb, geom_plane, if_congr (lPresent_geom s p sub blk) rfl rfl, ite_not]
  rfl

theorem muxAboveLeft_geom : muxAboveLeft s (geom s p sub blk) =
    if (geom s p sub blk).y0 = 0 then 127
    else if (geom s p sub blk).x0 = 0 then 129
    else s.sread (2 * (geom s p sub blk).size)
      ⟨s.mbFb, p, (geom s p sub blk).x0 - 1, (geom s p sub blk).y0 - 1⟩ := by
  obtain ⟨hx, hy⟩ := geom_aligned s p sub blk
  have hal := alPresent_iff (geom s p sub blk)
  rw [lPresent_geom, aPresent_geom] at hal
  rw [muxAboveLeft, hx, hy, geom_fb, geom_plane, if_congr hal rfl rfl,
    if_congr (aPresent_geom s p sub blk) rfl rfl]
  by_cases hy0 : (geom s p sub blk).y0 = 0
  · rw [if_neg fun h => h.2 hy0, if_neg (not_not_intro hy0), if_pos hy0]; rfl
  · by_cases hx0 : (geom s p sub blk).x0 = 0
    · rw [if_neg fun h => h.1 hx0, if_pos hy0, if_neg hy0, if_pos hx0]; rfl
    · rw [if_pos ⟨hx0, hy0⟩, if_neg hy0, if_neg hx0]

/-- The above-right row of a block's own tile begins where the block ends. -/
theorem muxAr_geom (i : Nat) :
    muxAr s (geom s p sub blk) (geom s p sub blk).tileX (geom s p sub blk).tileY i =
      s.sread (2 * (geom s p sub blk).size + 1 + i)
        ⟨s.mbFb, p, (geom s p sub blk).x0 + (geom s p sub blk).size + i, (geom s p sub blk).y0 - 1⟩ := by
  obtain ⟨hx, hy⟩ := geom_aligned s p sub blk
  rw [muxAr, Nat.mul_succ, hx, hy, geom_fb, geom_plane]

/-- The one above-right sample of a block's own tile is the last of its above row. -/
theorem muxBr_geom : muxBr s (geom s p sub blk) (geom s p sub blk).tileX (geom s p sub blk).tileY =
    if (geom s p sub blk).y0 = 0 then 127
    else s.sread (2 * (geom s p sub blk).size + 1)
      ⟨s.mbFb, p, (geom s p sub blk).x0 + (geom s p sub blk).size - 1, (geom s p sub blk).y0 - 1⟩ := by
  obtain ⟨hx, hy⟩ := geom_aligned s p sub blk
  have hty : 0 < (geom s p sub blk).tileY ↔ (geom s p sub blk).y0 ≠ 0 :=
    decide_eq_true_iff.symm.trans (aPresent_geom s p sub blk)
  rw [muxBr, hx, hy, geom_fb, geom_plane, if_congr hty rfl rfl, ite_not]
  rfl

end

/-! ### The fix-up (R135) -/

/-- The fix-up is that of the sub-blocks of column 3 below row 0. -/
theorem fixApplies_iff (blk : BitVec 4) : fixApplies blk = true ↔ blk = 7 ∨ blk = 11 ∨ blk = 15 := by
  revert blk; decide

/-- The tile of the fix-up is that of sub-block (3, 0), to which the fix-up does not apply. -/
theorem regionTile_fix_eq (s : State) (b : Block) :
    regionTile s b true = regionTile s (geom s .y true 3) (fixApplies 3) := by
  have hfix : fixApplies 3 = false := rfl
  have hx : (16 * s.mbX.toNat + 12) / 4 = 4 * s.mbX.toNat + 3 := by omega
  have hy : 16 * s.mbY.toNat / 4 = 4 * s.mbY.toNat := by omega
  rw [hfix]
  simp [regionTile, geom, Block.tileX, Block.tileY, hx, hy]

/-- With the fix-up a luma sub-block takes the above-right region of sub-block (3, 0). -/
theorem mux_fix_region_eq (s : State) (blk : BitVec 4) :
    let n := mux s (geom s .y true blk) true
    let n0 := mux s (geom s .y true 3) (fixApplies 3)
    n.useRow = n0.useRow ∧ n.ar = n0.ar ∧ n.br = n0.br := by
  simp only [mux, regionTile_fix_eq]
  exact ⟨rfl, rfl, rfl⟩

/-! ### Projections (R136 to R138) -/

section
variable (n : Neighbours)

@[simp] theorem Neighbours.above_neg_one : n.above (-1) = n.aboveLeft := rfl

@[simp] theorem Neighbours.left_neg_one : n.left (-1) = n.aboveLeft := rfl

@[simp] theorem Neighbours.left_natCast (r : Nat) : n.left r = n.leftColumn r := rfl

theorem Neighbours.above_of_lt_size {c : Nat} (h : c < n.size) : n.above c = n.aboveRow c := by
  simp [Neighbours.above, h]

theorem Neighbours.above_of_size_le {c : Nat} (h : n.size ≤ c) :
    n.above c = if n.useRow then n.ar (c - n.size) else n.br := by
  simp [Neighbours.above, h.not_gt]

/-- The nine values run up the left column, through the corner and along the above row. -/
theorem Neighbours.map_east_range : (List.range 9).map n.east =
    [n.leftColumn 3, n.leftColumn 2, n.leftColumn 1, n.leftColumn 0, n.aboveLeft,
      n.above (0 : Nat), n.above (1 : Nat), n.above (2 : Nat), n.above (3 : Nat)] := rfl

end

end Sys2Proof.Machine

namespace Sys2Proof.Proofs

open Sys2Proof Sys2Proof.Machine

/-- Settles O23: a neighbour is present just when the block does not start at that edge of the frame. -/
theorem neighboursAtTheEdgesOfTheFrame : Obligations.NeighboursAtTheEdgesOfTheFrame := fun s p sub blk =>
  ⟨muxAboveRow_geom s p sub blk, muxLeftColumn_geom s p sub blk, muxAboveLeft_geom s p sub blk⟩

/-- Settles O24: without the fix-up the region is that of the block's own tile. -/
theorem aboveRightRegionWithoutFixUp : Obligations.AboveRightRegionWithoutFixUp := by
  intro s p sub blk
  have hrow := arPresent_geom s p sub blk
  refine ⟨fun ⟨hy, hx⟩ => ⟨?_, ?_⟩, fun ⟨hy, hx⟩ => ⟨?_, ?_⟩, fun hy => ⟨?_, ?_⟩⟩
  · exact hrow.2 ⟨hy.ne', hx⟩
  · exact muxAr_geom s p sub blk
  · exact Bool.eq_false_iff.2 fun h => (hrow.1 h).2.not_ge hx
  · exact (muxBr_geom s p sub blk).trans (if_neg hy.ne')
  · exact Bool.eq_false_iff.2 fun h => (hrow.1 h).1 hy
  · exact (muxBr_geom s p sub blk).trans (if_pos hy)

/-- Settles O25: the shared region is that of sub-block (3, 0) without the fix-up, so R134 gives its three cases. -/
theorem rightEdgeFixUpSharesTheRegion : Obligations.RightEdgeFixUpSharesTheRegion := by
  intro s blk
  refine ⟨fixApplies_iff blk, fun hfix => ?_⟩
  rw [hfix]
  obtain ⟨huse, har, hbr⟩ := mux_fix_region_eq s blk
  obtain ⟨hinner, hright, htop⟩ := aboveRightRegionWithoutFixUp s .y true 3
  refine ⟨huse, har, hbr, ?_⟩
  rw [huse, har, hbr]
  have hposY : s.mbY ≠ 0 → 0 < 16 * s.mbY.toNat := fun h => by
    have : s.mbY.toNat ≠ 0 := fun h0 => h (BitVec.eq_of_toNat_eq h0)
    omega
  refine ⟨fun hy hx => hinner ⟨hposY hy, ?_⟩, fun hy hx => hright ⟨hposY hy, ?_⟩, fun hy => htop ?_⟩
  · change 16 * s.mbX.toNat + 12 + 4 < 16 * (s.slot s.mbFb).mbW
    omega
  · change 16 * (s.slot s.mbFb).mbW ≤ 16 * s.mbX.toNat + 12 + 4
    omega
  · change 16 * s.mbY.toNat = 0
    rw [hy]; rfl

/-- Settles O26: each projection on its range; the four above terms of `east` lie in the above row at S = 4. -/
theorem projectionsOfTheNeighbours : Obligations.ProjectionsOfTheNeighbours := by
  intro n
  refine ⟨n.above_neg_one, n.left_neg_one, fun c hc => ⟨n.above_of_lt_size hc, n.left_natCast c⟩,
    fun c hc _ => n.above_of_size_le hc, fun hsize => ?_⟩
  have habove : ∀ c < 4, n.above (c : Nat) = n.aboveRow c := fun c hc => n.above_of_lt_size (hsize ▸ hc)
  rw [n.map_east_range, habove 0, habove 1, habove 2, habove 3] <;> decide

end Sys2Proof.Proofs
end

section
/-! PROOFS. What a prediction command answers with a context and without one, the rounded means of INTRA_MB.DC, the
gradient of TM, and the statements of spec/42_intra_mb.md. -/

namespace Sys2Proof.Machine

/-! ### The frame of a prediction command, and its fault without a context (R150, R170, R200) -/

/-- A command that writes a predicted block and no more predicts that block. -/
theorem predicts_of_predictBlock {i : Instr} {s : State} {b : Block} {pred : Nat → Nat → Sample} {reads : Nat}
    (h : exec i s = .next (predictBlock b pred reads s)) : predicts i s b pred :=
  ⟨_, h, fun _ _ hc hr => cell_predictBlock_inside b pred reads s hc hr,
    ⟨⟨rfl, rfl, rfl, rfl, rfl⟩, ⟨rfl, rfl, rfl⟩, rfl, rfl, ⟨rfl, rfl, rfl⟩⟩,
    fun _ ha => cell_predictBlock_outside b pred reads s ha⟩

/-- INTRA_MB with a context predicts the macroblock-level block by its rule (R150). -/
theorem predicts_of_intraMb {i : Instr} {s : State} {p : Plane} {rule : Neighbours → Nat → Nat → Sample}
    (hv : s.mbValid = true) (hi : exec i s = intraMb (encode i) p rule s) :
    predicts i s (geom s p false 0) (rule (mux s (geom s p false 0) false)) :=
  predicts_of_predictBlock (hi.trans (intraMb_of_context ⟨rfl, rfl, rfl, rfl, rfl⟩ hv _ _ _))

/-- The context is the first check of every prediction command (R150, R170, R201). -/
theorem exec_of_no_context {i : Instr} {s : State} (hi : (predictedBlock i s).isSome = true)
    (hv : s.mbValid = false) : exec i s = .next (raiseLogicFault .noMbContext (encode i) s) := by
  cases i with
  | cfgRaster | beginMb => cases hi
  | intraMbDc | intraMbV | intraMbH | intraMbTm => exact if_pos hv
  | intraBDc | intraBTm | intraBVe | intraBHe | intraBLd | intraBRd | intraBVr | intraBVl | intraBHd | intraBHu =>
    exact if_pos hv
  | inter => exact if_pos hv

/-! ### The macroblock-level block (R116) -/

/-- The macroblock-level block is the whole of the current macroblock's part of the plane. -/
theorem geom_macroblock (s : State) (p : Plane) (blk : BitVec 4) :
    geom s p false blk = ⟨s.mbFb, p, mbSize p, mbSize p * s.mbX.toNat, mbSize p * s.mbY.toNat⟩ := by
  cases p <;> rfl

theorem geom_y0_of_mbY_zero {s : State} (h : s.mbY = 0) (p : Plane) (blk : BitVec 4) :
    (geom s p false blk).y0 = 0 := by
  simp [geom_macroblock, h]

theorem geom_x0_of_mbX_zero {s : State} (h : s.mbX = 0) (p : Plane) (blk : BitVec 4) :
    (geom s p false blk).x0 = 0 := by
  simp [geom_macroblock, h]

/-! ### The value of INTRA_MB.DC (R151) -/

theorem sumSamples_eq_sum (size : Nat) (f : Nat → Sample) :
    sumSamples size f = ∑ i ∈ Finset.range size, (f i).toNat := rfl

theorem sumSamples_le (size : Nat) (f : Nat → Sample) : sumSamples size f ≤ 255 * size := by
  have h := Finset.sum_le_card_nsmul (Finset.range size) (fun i => (f i).toNat) 255
    fun i _ => Nat.le_of_lt_succ (f i).isLt
  rwa [Finset.card_range, smul_eq_mul, Nat.mul_comm] at h

/-- The rounded mean of `k` samples is a sample, so narrowing it loses nothing. -/
theorem toNat_ofNat_roundedMean {sum k : Nat} (hk : 0 < k) (h : sum ≤ 255 * k) :
    (BitVec.ofNat 8 ((sum + k / 2) / k)).toNat = (sum + k / 2) / k := by
  have hlt : (sum + k / 2) / k < 256 := (Nat.div_lt_iff_lt_mul hk).2 (by omega)
  rw [BitVec.toNat_ofNat, Nat.mod_eq_of_lt hlt]

/-- The shifts of R151 are by the logarithm of the block's edge. -/
theorem two_pow_log2S (p : Plane) : 2 ^ log2S (mbSize p) = mbSize p ∧
    2 ^ (log2S (mbSize p) - 1) = mbSize p / 2 ∧ 2 ^ (log2S (mbSize p) + 1) = 2 * mbSize p := by
  cases p <;> decide

/-- The value of INTRA_MB.DC as a number: the rounded mean of the neighbours that are present. -/
theorem toNat_dcValue {n : Neighbours} {p : Plane} (hn : n.size = mbSize p) :
    (dcValue n).toNat =
      if n.aPresent && n.lPresent then
        (sumSamples n.size n.aboveRow + sumSamples n.size n.leftColumn + n.size) / (2 * n.size)
      else if n.aPresent then (sumSamples n.size n.aboveRow + n.size / 2) / n.size
      else if n.lPresent then (sumSamples n.size n.leftColumn + n.size / 2) / n.size
      else 128 := by
  obtain ⟨hpow, hhalf, htwice⟩ := two_pow_log2S p
  rw [← hn] at hpow hhalf htwice
  have hpos : 0 < n.size := by rw [hn]; cases p <;> decide
  have hA := sumSamples_le n.size n.aboveRow
  have hL := sumSamples_le n.size n.leftColumn
  unfold dcValue
  rw [hpow, hhalf, htwice]
  split
  · have h := toNat_ofNat_roundedMean (sum := sumSamples n.size n.aboveRow + sumSamples n.size n.leftColumn)
      (k := 2 * n.size) (by omega) (by omega)
    rwa [Nat.mul_div_cancel_left _ Nat.two_pos] at h
  · split
    · exact toNat_ofNat_roundedMean hpos hA
    · split
      · exact toNat_ofNat_roundedMean hpos hL
      · rfl

/-- The same in positions of the plane: a neighbour is present unless the block starts at that edge of the frame. -/
theorem toNat_dcValue_geom (s : State) (p : Plane) :
    let b := geom s p false 0
    let sumA := ∑ i ∈ Finset.range b.size, (muxAboveRow s b i).toNat
    let sumL := ∑ i ∈ Finset.range b.size, (muxLeftColumn s b i).toNat
    (dcValue (mux s b false)).toNat =
      if b.y0 ≠ 0 ∧ b.x0 ≠ 0 then (sumA + sumL + b.size) / (2 * b.size)
      else if b.y0 ≠ 0 then (sumA + b.size / 2) / b.size
      else if b.x0 ≠ 0 then (sumL + b.size / 2) / b.size
      else 128 := by
  have hA := aPresent_geom s p false 0
  have hL := lPresent_geom s p false 0
  have h := toNat_dcValue (n := mux s (geom s p false 0) false) (p := p) (by rw [geom_macroblock]; rfl)
  simp only [mux, Bool.and_eq_true, hA, hL] at h
  exact h

/-! ### The gradient of TM (R154, R172) -/

/-- The clamp as an integer (R10). -/
theorem cast_toNat_clamp255 (x : Int) : ((clamp255 x).toNat : Int) = max 0 (min 255 x) := by
  rw [toNat_clamp255]
  exact Int.toNat_of_nonneg (clamp_mem (by decide)).1

/-- TM in natural numbers, where a difference below 0 is 0 already: it is the clamp of the integer. -/
theorem toNat_predTm (n : Neighbours) (c r : Nat) : (predTm n c r).toNat =
    max 0 (min 255 ((n.leftColumn r).toNat + (n.aboveRow c).toNat - n.aboveLeft.toNat)) := by
  have h := cast_toNat_clamp255 ((n.leftColumn r).toNat + (n.aboveRow c).toNat - n.aboveLeft.toNat)
  rw [predTm]
  omega

/-- Where the above row is the corner, TM copies the left column. -/
theorem predTm_eq_leftColumn {n : Neighbours} {c : Nat} (h : n.aboveRow c = n.aboveLeft) (r : Nat) :
    predTm n c r = n.leftColumn r := by
  rw [predTm, h, Int.add_sub_cancel, clamp255_toNat]

/-- Where the left column is the corner, TM copies the above row. -/
theorem predTm_eq_aboveRow {n : Neighbours} {r : Nat} (h : n.leftColumn r = n.aboveLeft) (c : Nat) :
    predTm n c r = n.aboveRow c := by
  rw [predTm, h, Int.add_comm, Int.add_sub_cancel, clamp255_toNat]

end Sys2Proof.Machine

namespace Sys2Proof.Proofs

open Sys2Proof Sys2Proof.Machine

/-- Settles O29: a mean of samples is a sample, so each branch of R151 is its number. -/
theorem intraMbDcAveragesThePresentNeighbours : Obligations.IntraMbDcAveragesThePresentNeighbours := by
  intro p s hv b sumA sumL
  have hdc := toNat_dcValue_geom s p
  refine ⟨dcValue (mux s b false), predicts_of_intraMb (rule := predDc) hv rfl, fun hy hx => ?_, fun hy hx => ?_,
    fun hy hx => ?_, fun hy hx => ?_⟩
  · exact hdc.trans (if_pos ⟨hy.ne', hx.ne'⟩)
  · rw [hdc, if_neg fun h => h.2 hx, if_pos hy.ne']
  · rw [hdc, if_neg fun h => h.1 hy, if_neg (not_not_intro hy), if_pos hx.ne']
  · rw [hdc, if_neg fun h => h.1 hy, if_neg (not_not_intro hy), if_neg (not_not_intro hx)]

/-- Settles O30: each mode is one field of the neighbours, which is the synthetic value at its edge of the frame. -/
theorem intraMbVAndHCopyTheirEdge : Obligations.IntraMbVAndHCopyTheirEdge := by
  intro p s hv b
  have hV : predicts (.intraMbV p) s b (fun c _ => muxAboveRow s b c) := predicts_of_intraMb (rule := predV) hv rfl
  have hH : predicts (.intraMbH p) s b (fun _ r => muxLeftColumn s b r) := predicts_of_intraMb (rule := predH) hv rfl
  refine ⟨hV, hH, fun hy => ?_, fun hx => ?_⟩
  · have htop : muxAboveRow s b = fun _ => 127 :=
      funext fun i => (muxAboveRow_geom s p false 0 i).trans (if_pos (geom_y0_of_mbY_zero hy p 0))
    rwa [htop] at hV
  · have hedge : muxLeftColumn s b = fun _ => 129 :=
      funext fun i => (muxLeftColumn_geom s p false 0 i).trans (if_pos (geom_x0_of_mbX_zero hx p 0))
    rwa [hedge] at hH

/-- Settles O31: on the top edge the above row is the corner (127), and on the left edge below it the left column is
(129), so the gradient copies the other side. -/
theorem intraMbTmClampsTheGradient : Obligations.IntraMbTmClampsTheGradient := by
  intro p s hv b
  have hTm : predicts (.intraMbTm p) s b (predTm (mux s b false)) := predicts_of_intraMb hv rfl
  refine ⟨⟨_, hTm, fun c r => congrArg Nat.cast (toNat_predTm _ c r)⟩, fun hmbY => ?_, fun hmbX hy => ?_⟩
  · have hy : b.y0 = 0 := geom_y0_of_mbY_zero hmbY p 0
    have hcorner : ∀ c, muxAboveRow s b c = muxAboveLeft s b := fun c => by
      rw [muxAboveRow_geom, muxAboveLeft_geom, if_pos hy, if_pos hy]
    have hpred : predTm (mux s b false) = fun _ r => muxLeftColumn s b r :=
      funext₂ fun c r => predTm_eq_leftColumn (hcorner c) r
    rwa [hpred] at hTm
  · have hx : b.x0 = 0 := geom_x0_of_mbX_zero hmbX p 0
    have hcorner : ∀ r, muxLeftColumn s b r = muxAboveLeft s b := fun r => by
      rw [muxLeftColumn_geom, muxAboveLeft_geom, if_pos hx, if_neg hy.ne', if_pos hx]
    have hpred : predTm (mux s b false) = fun c _ => muxAboveRow s b c :=
      funext₂ fun c r => predTm_eq_aboveRow (hcorner r) c
    rwa [hpred] at hTm

/-- Settles O42: each of the fourteen predicts a block, so its first check is that of the context. -/
theorem intraNeedsAContext : Obligations.IntraNeedsAContext := by
  intro s p blk hv i hi
  have hblock : (predictedBlock i s).isSome = true := by
    revert i
    exact List.all_eq_true.1 rfl
  exact faultsWith_of_raise (exec_of_no_context hblock hv)

end Sys2Proof.Proofs
end

section
/-! PROOFS. A sub-block mode by its 4×4 grid, the eight-sample mean of INTRA_B.DC, and the statements of
spec/43_intra_b.md. -/

namespace Sys2Proof.Machine

/-! ### A mode by its grid (R170) -/

/-- The 4×4 grid of a rule, row by row, as the spec writes it. -/
def gridRows (pred : Nat → Nat → Sample) : List (List Sample) :=
  (List.range 4).map fun r => (List.range 4).map fun c => pred c r

theorem gridCell_gridRows (pred : Nat → Nat → Sample) {c r : Nat} (hc : c < 4) (hr : r < 4) :
    gridCell (gridRows pred) c r = pred c r := by
  simp [gridCell, gridRows, hc, hr]

/-- Rules with the same grid agree in every cell of it. -/
theorem eq_of_gridRows_eq {f g : Nat → Nat → Sample} (h : gridRows f = gridRows g) {c r : Nat} (hc : c < 4)
    (hr : r < 4) : f c r = g c r := by
  rw [← gridCell_gridRows f hc hr, h, gridCell_gridRows g hc hr]

/-- Only the cells of the block count in a prediction. -/
theorem predicts_congr {i : Instr} {s : State} {b : Block} {pred pred' : Nat → Nat → Sample}
    (h : predicts i s b pred) (hpred : ∀ c r, c < b.size → r < b.size → pred c r = pred' c r) :
    predicts i s b pred' := by
  obtain ⟨t, ht, hin, hframe⟩ := h
  exact ⟨t, ht, fun c r hc hr => (hin c r hc hr).trans (congrArg some (hpred c r hc hr)), hframe⟩

/-- INTRA_B with a context predicts the sub-block by its rule (R170). -/
theorem predicts_of_intraB {i : Instr} {s : State} {blk : BitVec 4} {rule : Neighbours → Nat → Nat → Sample}
    (hv : s.mbValid = true) (hi : exec i s = intraB (encode i) blk rule s) :
    predicts i s (geom s .y true blk) (rule (mux s (geom s .y true blk) (fixApplies blk))) :=
  predicts_of_predictBlock (hi.trans (intraB_of_context ⟨rfl, rfl, rfl, rfl, rfl⟩ hv _ _ _))

/-- INTRA_B with a context predicts the sub-block by any rule with the grid of its own. -/
theorem predicts_of_intraB_grid {i : Instr} {s : State} {blk : BitVec 4} {rule : Neighbours → Nat → Nat → Sample}
    {pred : Nat → Nat → Sample} (hv : s.mbValid = true) (hi : exec i s = intraB (encode i) blk rule s)
    (hgrid : gridRows (rule (mux s (geom s .y true blk) (fixApplies blk))) = gridRows pred) :
    predicts i s (geom s .y true blk) pred :=
  predicts_congr (predicts_of_intraB hv hi) fun _ _ hc hr => eq_of_gridRows_eq hgrid hc hr

/-! ### The value of INTRA_B.DC (R171) -/

theorem sumSamples_four (f : Nat → Sample) :
    sumSamples 4 f = (f 0).toNat + (f 1).toNat + (f 2).toNat + (f 3).toNat := by
  simp [sumSamples_eq_sum, Finset.sum_range_succ]

/-- The value of INTRA_B.DC as a number: the mean of eight samples needs no narrowing. -/
theorem toNat_predBDc (n : Neighbours) (c r : Nat) :
    (predBDc n c r).toNat = (sumSamples 4 n.aboveRow + sumSamples 4 n.leftColumn + 4) / 8 := by
  have hA := sumSamples_le 4 n.aboveRow
  have hL := sumSamples_le 4 n.leftColumn
  exact toNat_ofNat_roundedMean (k := 8) (by decide) (by omega)

/-- At the top-left of the frame both borders are synthetic, and their mean is 128. -/
theorem predBDc_mux_top_left {s : State} {p : Plane} {sub : Bool} {blk : BitVec 4} (hx : (geom s p sub blk).x0 = 0)
    (hy : (geom s p sub blk).y0 = 0) (fix : Bool) (c r : Nat) : predBDc (mux s (geom s p sub blk) fix) c r = 128 := by
  have hA : (mux s (geom s p sub blk) fix).aboveRow = fun _ => 127 :=
    funext fun i => (muxAboveRow_geom s p sub blk i).trans (if_pos hy)
  have hL : (mux s (geom s p sub blk) fix).leftColumn = fun _ => 129 :=
    funext fun i => (muxLeftColumn_geom s p sub blk i).trans (if_pos hx)
  rw [predBDc, hA, hL]
  rfl

/-! ### The east terms of HD (R179) -/

section
variable (n : Neighbours) {r : Nat}

/-- Column 0 of HD averages two samples going up the left column to the corner. -/
theorem predBHd_column_zero (hr : r < 4) : predBHd n 0 r = avg2 (n.east (3 - r)) (n.east (4 - r)) := by
  interval_cases r <;> rfl

/-- Column 1 of HD averages three samples going up the left column and round the corner. -/
theorem predBHd_column_one (hr : r < 4) :
    predBHd n 1 r = avg3 (n.east (3 - r)) (n.east (4 - r)) (n.east (5 - r)) := by
  interval_cases r <;> rfl

/-- From row 1 on, columns 2 and 3 of HD are columns 0 and 1 of the row above. -/
theorem predBHd_succ_row (hr : r < 3) :
    predBHd n 2 (r + 1) = predBHd n 0 r ∧ predBHd n 3 (r + 1) = predBHd n 1 r := by
  interval_cases r <;> exact ⟨rfl, rfl⟩

end

end Sys2Proof.Machine

namespace Sys2Proof.Proofs

open Sys2Proof Sys2Proof.Machine

/-- Settles O32: the rounded mean of eight samples, of four 127 and four 129 at the top-left. -/
theorem intraBDcUsesTheSyntheticBorders : Obligations.IntraBDcUsesTheSyntheticBorders := by
  intro blk s hv b n
  refine ⟨predBDc n 0 0, predicts_of_intraB (rule := predBDc) hv rfl, ?_, fun hx hy => ?_⟩
  · rw [toNat_predBDc, sumSamples_four, sumSamples_four]
    simp only [Nat.add_assoc]
  · exact predBDc_mux_top_left hx hy _ 0 0

/-- Settles O33: the rule is that of R154, which copies the left column where the above row is the corner. -/
theorem intraBTmClampsTheGradient : Obligations.IntraBTmClampsTheGradient := by
  intro blk s hv b n
  refine ⟨predTm n, predicts_of_intraB (rule := predTm) hv rfl, fun c r => ?_, fun k c r hl ha hp => ?_⟩
  · exact congrArg Nat.cast (toNat_predTm n c r)
  · exact (predTm_eq_leftColumn (ha.trans hp.symm) r).trans hl

/-- Settles O34: column `c` of the grid is the average round above sample `c`, the corner being sample −1. -/
theorem intraBVeSmoothsTheAboveRow : Obligations.IntraBVeSmoothsTheAboveRow := fun _ _ hv =>
  predicts_of_intraB_grid (rule := predBVe) hv rfl rfl

/-- Settles O35: row `r` of the grid is the average round left sample `r`, the corner being sample −1; row 3 is the
rule's other branch. -/
theorem intraBHeSmoothsTheLeftColumn : Obligations.IntraBHeSmoothsTheLeftColumn := fun _ _ hv =>
  predicts_of_intraB_grid (rule := predBHe) hv rfl rfl

/-- Settles O36: the rule by `c + r` has the grid of R175, whose corner (3, 3) is its other branch. -/
theorem intraBLdTable : Obligations.IntraBLdTable := fun _ _ hv =>
  predicts_of_intraB_grid (rule := predBLd) hv rfl rfl

/-- Settles O37: the rule by `4 − r + c` along the east samples, which are L3 to L0, P and A0 to A3, has the grid of
R176. -/
theorem intraBRdTable : Obligations.IntraBRdTable := fun _ _ hv =>
  predicts_of_intraB_grid (rule := predBRd) hv rfl rfl

/-- Settles O38: the samples of VR's grid are east samples 1 to 8, and the east terms give the same grid. -/
theorem intraBVrInEastTerms : Obligations.IntraBVrInEastTerms := fun _ _ hv =>
  predicts_of_intraB_grid (rule := predBVr) hv rfl rfl

/-- Settles O39: the pattern gives VL's grid but for cells (3, 2) and (3, 3), which the first two branches give. -/
theorem intraBVlWithItsTwoExceptions : Obligations.IntraBVlWithItsTwoExceptions := fun _ _ hv =>
  predicts_of_intraB_grid (rule := predBVl) hv rfl rfl

/-- Settles O40: each column of HD's grid in its east terms. -/
theorem intraBHdInEastTerms : Obligations.IntraBHdInEastTerms := by
  intro blk s hv b e
  refine ⟨predBHd (mux s b (fixApplies blk)), predicts_of_intraB (rule := predBHd) hv rfl,
    fun _ hr => predBHd_column_zero _ hr, fun _ hr => predBHd_column_one _ hr, fun r hr h1 => ?_, rfl, rfl⟩
  obtain ⟨k, rfl⟩ : ∃ k, r = k + 1 := ⟨r - 1, by omega⟩
  exact predBHd_succ_row _ (by omega)

/-- Settles O41: HU's grid read along `c + 2·r` is the six averages and then L3, whatever the neighbours
are. -/
theorem intraBHuRepeatsTheLastSample : Obligations.IntraBHuRepeatsTheLastSample := by
  intro blk s hv
  dsimp only
  refine predicts_of_intraB_grid (rule := predBHu) hv rfl ?_
  generalize mux s (geom s .y true blk) (fixApplies blk) = n
  rfl

end Sys2Proof.Proofs
end

section
/-! PROOFS. The split of a motion-vector component, the taps of the filter ROM and the arithmetic of `Fk`, what each branch
of INTER answers and what its samples depend on, and the statements of spec/44_inter.md. -/

namespace Sys2Proof.Machine

/-! ### A motion-vector component (R203) -/

/-- A component is 8 times its integer part plus its phase: the shift and the mask are quotient and remainder. -/
theorem eight_mul_mvInt_add_mvPhase (mv : BitVec 16) : 8 * mvInt mv + (mvPhase mv : Int) = mv.toInt := by
  have hphase : (mvPhase mv : Int) = sext16 mv % 8 := Int.toNat_of_nonneg (Int.emod_nonneg _ (by decide))
  rw [hphase, mvInt, sar]
  exact Int.mul_ediv_add_emod (sext16 mv) 8

theorem mvPhase_lt (mv : BitVec 16) : mvPhase mv < 8 := by
  rw [mvPhase]
  omega

@[simp] theorem mvInt_zero : mvInt 0 = 0 := by decide

@[simp] theorem mvPhase_zero : mvPhase 0 = 0 := by decide

/-! ### The arithmetic of `Fk` (R36, R208 to R210) -/

/-- Every row of the filter ROM sums to 128 (R36). -/
theorem filterTap_sum {ph : Nat} (h : ph < 8) :
    filterTap ph 0 + filterTap ph 1 + filterTap ph 2 + filterTap ph 3 + filterTap ph 4 + filterTap ph 5 = 128 := by
  revert ph
  decide

/-- In every row of the filter ROM the taps below 0 sum to no less than −32. -/
theorem filterTap_negative_sum {ph : Nat} (h : ph < 8) : -32 ≤ min 0 (filterTap ph 0) + min 0 (filterTap ph 1) +
    min 0 (filterTap ph 2) + min 0 (filterTap ph 3) + min 0 (filterTap ph 4) + min 0 (filterTap ph 5) := by
  revert ph
  decide

/-- The product of a sample and a tap lies between 0 and 255 times the tap. -/
theorem sample_mul_bounds (v : Sample) (t : Int) :
    255 * min 0 t ≤ v.toNat * t ∧ v.toNat * t ≤ 255 * t - 255 * min 0 t := by
  have hv : (v.toNat : Int) ≤ 255 := by have := v.isLt; omega
  have hv0 : 0 ≤ (v.toNat : Int) := Int.natCast_nonneg _
  rcases le_total 0 t with ht | ht
  · have hlo := mul_nonneg hv0 ht
    have hhi := mul_le_mul_of_nonneg_right hv ht
    rw [min_eq_left ht]
    constructor <;> linarith
  · have hlo := mul_le_mul_of_nonpos_right hv ht
    have hhi := mul_nonpos_of_nonneg_of_nonpos hv0 ht
    rw [min_eq_right ht]
    constructor <;> linarith

/-- The range of the tap sum: the taps below 0 sum to −32 at the least, so the others to 160 at the most. -/
theorem tapSum_bounds {ph : Nat} (h : ph < 8) (s0 s1 s2 s3 s4 s5 : Sample) :
    -8160 ≤ tapSum ph s0 s1 s2 s3 s4 s5 ∧ tapSum ph s0 s1 s2 s3 s4 s5 ≤ 40800 := by
  have hsum := filterTap_sum h
  have hneg := filterTap_negative_sum h
  obtain ⟨l0, u0⟩ := sample_mul_bounds s0 (filterTap ph 0)
  obtain ⟨l1, u1⟩ := sample_mul_bounds s1 (filterTap ph 1)
  obtain ⟨l2, u2⟩ := sample_mul_bounds s2 (filterTap ph 2)
  obtain ⟨l3, u3⟩ := sample_mul_bounds s3 (filterTap ph 3)
  obtain ⟨l4, u4⟩ := sample_mul_bounds s4 (filterTap ph 4)
  obtain ⟨l5, u5⟩ := sample_mul_bounds s5 (filterTap ph 5)
  unfold tapSum
  constructor <;> linarith

/-- `Fk` as an integer: its rounded and shifted tap sum, clamped (R208). -/
theorem toNat_filterSix (ph : Nat) (s0 s1 s2 s3 s4 s5 : Sample) : ((filterSix ph s0 s1 s2 s3 s4 s5).toNat : Int) =
    max 0 (min 255 ((tapSum ph s0 s1 s2 s3 s4 s5 + 64) / 128)) :=
  cast_toNat_clamp255 _

/-- A tap sum of 128 times a sample rounds to the sample. -/
theorem filterSix_of_tapSum_eq {ph : Nat} {s0 s1 s2 s3 s4 s5 v : Sample}
    (h : tapSum ph s0 s1 s2 s3 s4 s5 = 128 * v.toNat) : filterSix ph s0 s1 s2 s3 s4 s5 = v := by
  have hshift : sar (128 * (v.toNat : Int) + 64) 7 = v.toNat := by rw [sar]; omega
  rw [filterSix, h, hshift, clamp255_toNat]

/-- The one tap of phase 0 is 128, at sample 2 (R209). -/
@[simp] theorem filterSix_zero (s0 s1 s2 s3 s4 s5 : Sample) : filterSix 0 s0 s1 s2 s3 s4 s5 = s2 :=
  filterSix_of_tapSum_eq (by simp [tapSum, filterTap, filterRom, Int.mul_comm])

/-- Six equal samples give themselves (R210). -/
theorem filterSix_flat {ph : Nat} (h : ph < 8) (v : Sample) : filterSix ph v v v v v v = v :=
  filterSix_of_tapSum_eq <| by rw [← filterTap_sum h, tapSum]; ring

/-! ### The equations of INTER (R200, R201) -/

section
variable {ref : Slot} {s : State} (p : Plane) (sub : Bool) (blk : BitVec 4) (mvx mvy : BitVec 16)

theorem execInter_of_unconfigured (hv : s.mbValid = true) (hr : (s.slot ref).valid = false) :
    exec (.inter ref p sub blk mvx mvy) s =
      .next (raiseLogicFault .fbNotConfigured (encode (.inter ref p sub blk mvx mvy)) s) := by
  simp [exec, execInter, hv, hr]

theorem execInter_of_current (hv : s.mbValid = true) (hr : (s.slot ref).valid = true) (hc : ref = s.mbFb) :
    exec (.inter ref p sub blk mvx mvy) s =
      .next (raiseLogicFault .refIsCurrent (encode (.inter ref p sub blk mvx mvy)) s) := by
  simp [exec, execInter, hv, hr, ← hc]

/-- INTER with its checks passed predicts the block that its operands name, and has no other effect. -/
theorem predicts_of_interReady (h : interReady ref s) : predicts (.inter ref p sub blk mvx mvy) s
    (geom s p sub blk) (predInter s ⟨geom s p sub blk, ref, mvx, mvy⟩) :=
  predicts_of_predictBlock (execInter_of_ready h p sub blk mvx mvy)

end

/-! ### The samples of INTER (R203 to R207) -/

/-- With both phases 0 the block is copied (R204). -/
theorem predInter_of_copy (s : State) {a : InterArgs} (hx : mvPhase a.mvx = 0) (hy : mvPhase a.mvy = 0) :
    predInter s a = copyCell s a := by
  funext c r
  simp [predInter, isCopy, hx, hy]

/-- With a phase other than 0 the block is filtered (R206, R207). -/
theorem predInter_of_filter (s : State) {a : InterArgs} (h : mvPhase a.mvx ≠ 0 ∨ mvPhase a.mvy ≠ 0) :
    predInter s a = filterCell s a := by
  funext c r
  simp [predInter, isCopy, not_and_or.2 h]

/-- A reference read at a position of the plane is a read of that cell: the clamp does nothing (R205). -/
theorem refRead_of_lt (s : State) (ref : Slot) {p : Plane} (j : Nat) {x y : Nat} (hx : x < (s.slot ref).planeW p)
    (hy : y < (s.slot ref).planeH p) : refRead s ref p j x y = s.sread j ⟨ref, p, x, y⟩ := by
  rw [refRead, clamp_of_mem (by omega) (by omega), clamp_of_mem (by omega) (by omega)]
  rfl

/-- With the vector (0, 0) a cell in the reference plane is a read of the reference cell at its own position (R217). -/
theorem copyCell_zero (s : State) (b : Block) (ref : Slot) {c r : Nat} (hx : b.x0 + c < (s.slot ref).planeW b.plane)
    (hy : b.y0 + r < (s.slot ref).planeH b.plane) :
    copyCell s ⟨b, ref, 0, 0⟩ c r = s.sread (b.size * r + c) ⟨ref, b.plane, b.x0 + c, b.y0 + r⟩ := by
  have h := refRead_of_lt s ref (b.size * r + c) hx hy
  rw [Nat.cast_add, Nat.cast_add] at h
  simpa only [copyCell, InterArgs.sc, InterArgs.sr, mvInt_zero, Int.add_zero] using h

/-- The samples of INTER depend on the reference plane, the slot registers and the count of draws alone (R202). -/
theorem predInter_congr {s t : State} {a : InterArgs} (hf : t.fb = s.fb) (hd : t.draws = s.draws)
    (hk : sameCells (fun q => q.fb = a.ref ∧ q.plane = a.block.plane) s t) : predInter t a = predInter s a := by
  funext c r
  simp only [predInter, copyCell, filterCell, interT, tapRead, refRead_congr hf hd hk]

end Sys2Proof.Machine

namespace Sys2Proof.Proofs

open Sys2Proof Sys2Proof.Machine

/-- Settles O43: each failed check raises its LogicFault, whose code is that of R232, and with none failed the block is
predicted. -/
theorem interChecksInOrder : Obligations.InterChecksInOrder := by
  intro ref p sub blk mvx mvy s i
  refine ⟨fun hv => ?_, fun hv hr => ?_, fun hv hr hc => ?_, fun hready => ?_⟩
  · exact faultsWith_of_raise (exec_of_no_context rfl hv)
  · exact faultsWith_of_raise (execInter_of_unconfigured p sub blk mvx mvy hv hr)
  · exact faultsWith_of_raise (execInter_of_current p sub blk mvx mvy hv hr hc)
  · obtain ⟨t, ht, -, hregs, -⟩ := predicts_of_interReady p sub blk mvx mvy hready
    exact ⟨t, ht, hregs⟩

/-- Settles O46: a pass with phase 0 gives its sample 2. -/
theorem phaseZeroIsTheIdentity : Obligations.PhaseZeroIsTheIdentity := by
  refine ⟨filterSix_zero, fun s a c r hy => ?_, fun s a c r hx => ?_⟩
  · rw [filterCell, hy, filterSix_zero]
  · have hT : ∀ t, interT s a c t = tapRead s a c t 2 := fun t => by rw [interT, hx, filterSix_zero]
    simp only [filterCell, hT]

/-- Settles O47: the shift keeps the order, so the range of the tap sum gives that of the shift. -/
theorem filterSumsStayInRange : Obligations.FilterSumsStayInRange := by
  intro ph s0 s1 s2 s3 s4 s5 h
  obtain ⟨hlo, hhi⟩ := tapSum_bounds h s0 s1 s2 s3 s4 s5
  refine ⟨hlo, hhi, ?_, ?_, filterSix_flat h s0⟩ <;> rw [sar] <;> omega

/-- Settles O48: with both phases 0 a cell is one clamped read. -/
theorem interCopiesTheReferenceRectangle : Obligations.InterCopiesTheReferenceRectangle := by
  intro ref p sub blk mvx mvy s hready hx hy b w h
  refine predicts_congr (predicts_of_interReady p sub blk mvx mvy hready) fun c r _ _ => ?_
  rw [predInter_of_copy s hx hy, copyCell, geom_plane]
  rfl

/-- Settles O49: with a phase other than 0 a cell is the vertical filter of horizontal filters of clamped reads. -/
theorem interFiltersHorizontallyThenVertically : Obligations.InterFiltersHorizontallyThenVertically := by
  intro ref p sub blk mvx mvy s hready hphase b w h read hpass
  have hread : ∀ c t i, tapRead s ⟨b, ref, mvx, mvy⟩ c t i = read c t i := fun c t i => by
    rw [tapRead, geom_plane]
    rfl
  have hrow : ∀ c t, interT s ⟨b, ref, mvx, mvy⟩ c t = hpass c t := fun c t => by
    simp only [interT, hread, hpass]
  refine predicts_congr (predicts_of_interReady p sub blk mvx mvy hready) fun c r _ _ => ?_
  rw [predInter_of_filter s hphase]
  simp only [filterCell, hrow, b]

/-- Settles O50: the copy of a cell inside the reference reads the cell at its own position. -/
theorem zeroVectorCopiesInPlace : Obligations.ZeroVectorCopiesInPlace := by
  intro ref p sub blk s hready b hw hh
  obtain ⟨t, ht, hin, -⟩ := predicts_of_interReady p sub blk 0 0 hready
  have hplane : b.plane = p := geom_plane s p sub blk
  refine ⟨t, ht, fun c r v hc hr hcell => ?_⟩
  have hx : b.x0 + c < (s.slot ref).planeW b.plane := by rw [hplane]; omega
  have hy : b.y0 + r < (s.slot ref).planeH b.plane := by rw [hplane]; omega
  rw [hin c r hc hr, predInter_of_copy s mvPhase_zero mvPhase_zero, copyCell_zero s b ref hx hy, hplane,
    sread_of_written hcell]

/-- Settles O52: both states predict the one block, by equal samples. -/
theorem interReadsOnlyTheReferencePlane : Obligations.InterReadsOnlyTheReferencePlane := by
  intro ref p sub blk mvx mvy s s' t t' hready hc hd hk ht ht' a ha
  have hready' : interReady ref s' := by
    obtain ⟨hfb, hv, hmb, -, -⟩ := hc
    rwa [interReady, slot_congr hfb, hv, hmb]
  cases ht.symm.trans (execInter_of_ready hready p sub blk mvx mvy)
  cases ht'.symm.trans (execInter_of_ready hready' p sub blk mvx mvy)
  obtain ⟨c, r, hcs, hrs, rfl⟩ := (Block.contains_iff _ a).1 ha
  have hpred : predInter s' ⟨geom s p sub blk, ref, mvx, mvy⟩ = predInter s ⟨geom s p sub blk, ref, mvx, mvy⟩ :=
    predInter_congr hc.1 hd (by rwa [geom_plane])
  rw [geom_congr hc, cell_predictBlock_inside _ _ _ _ hcs hrs, cell_predictBlock_inside _ _ _ _ hcs hrs, hpred]

/-- Settles O44: quotient and remainder of the component by 8. -/
theorem motionVectorSplitsIntoEighths : Obligations.MotionVectorSplitsIntoEighths :=
  fun mv => ⟨eight_mul_mvInt_add_mvPhase mv, mvPhase_lt mv⟩

/-- Settles O45: `Fk` as an integer, with the taps of each row of the ROM. -/
theorem filterArithmeticIsExact : Obligations.FilterArithmeticIsExact := by
  intro s0 s1 s2 s3 s4 s5 f k
  have hk : ∀ ph, k ph = f (filterTap ph 0) (filterTap ph 1) (filterTap ph 2) (filterTap ph 3) (filterTap ph 4)
      (filterTap ph 5) := fun ph => toNat_filterSix ph s0 s1 s2 s3 s4 s5
  exact ⟨hk 0, hk 1, hk 2, hk 3, hk 4, hk 5, hk 6, hk 7⟩

end Sys2Proof.Proofs
end

section
/-! PROOFS. What each part of the model can do to FAULTED, what a core does with no word and after a fault, and the
statements of spec/60_exceptions.md. -/

namespace Sys2Proof.Machine

/-! ### The LogicFaults of the decoder and of the commands (R232) -/

/-- The fields of a word have no check but those of PLANE, BMODE and BLK (R95). -/
theorem decodeFields_error {fmt : Format} {w : CommandWord} {k : LogicFault} (h : decodeFields fmt w = .error k) :
    k = .badPlane ∨ k = .badMode ∨ k = .badBlock := by
  cases fmt with
  | c | m => cases h
  | i =>
    by_cases hp : (bits w 54 2).toNat = 3
    · cases (decodeI_of_no_plane hp).symm.trans h; exact .inl rfl
    · obtain ⟨p, hp⟩ := exists_plane_of_ne_three hp
      cases (decodeI_of_plane hp).symm.trans h
  | b =>
    cases hm : intraBOf (bits w 0 4) (bits w 48 4) with
    | none => cases (decodeB_of_no_mode hm).symm.trans h; exact .inr (.inl rfl)
    | some j => cases (decodeB_of_mode hm).symm.trans h
  | p =>
    by_cases hp : (bits w 54 2).toNat = 3
    · cases (decodeP_of_no_plane hp).symm.trans h; exact .inl rfl
    · obtain ⟨p, hp⟩ := exists_plane_of_ne_three hp
      have hblk := (decodeP_of_plane hp).symm.trans h
      split at hblk <;> cases hblk
      exact .inr (.inr rfl)

/-- The decoder raises five of the nine LogicFaults (R95, R232). -/
theorem decode_error {w : CommandWord} {k : LogicFault} (h : decode w = .error k) :
    k = .illegalOpcode ∨ k = .reservedBits ∨ k = .badPlane ∨ k = .badMode ∨ k = .badBlock := by
  cases hf : formatOf (bits w 60 4) with
  | none => cases (decode_of_no_format hf).symm.trans h; exact .inl rfl
  | some fmt =>
    by_cases hr : w &&& reservedMask fmt = 0
    · exact .inr (.inr (decodeFields_error ((decode_eq_decodeFields hf hr).symm.trans h)))
    · cases (decode_of_reserved_bit hf hr).symm.trans h; exact .inr (.inl rfl)

/-- The command enters a LogicFault of state, one of the codes 6 to 9, or leaves FAULTED and the outside as they are. -/
def faultsOrGoesOn (i : Instr) (s : State) : Prop :=
  (∃ k, 6 ≤ (faultCodeOf k).toNat ∧ exec i s = .next (raiseLogicFault k (encode i) s)) ∨
    ∃ t, exec i s = .next t ∧ t.faulted = s.faulted ∧ sameOutside s t

/-- An intra command faults without a context, and predicts its block with one (R150, R170). -/
theorem faultsOrGoesOn_of_intra {i : Instr} {s : State} {b : Block}
    (hi : ∀ ref p sub blk mvx mvy, i ≠ .inter ref p sub blk mvx mvy) (hb : predictedBlock i s = some b) :
    faultsOrGoesOn i s := by
  cases hv : s.mbValid with
  | false => exact .inl ⟨.noMbContext, by decide, exec_of_no_context (Option.isSome_of_eq_some hb) hv⟩
  | true =>
    obtain ⟨rule, fix, he⟩ := exec_intra_eq hi hb hv
    exact .inr ⟨_, he s ⟨rfl, rfl, rfl, rfl, rfl⟩, rfl, rfl, rfl, rfl⟩

/-- Every command enters a LogicFault of state or leaves FAULTED and the outside as they are (R231, R236). -/
theorem exec_faultsOrGoesOn (i : Instr) (s : State) : faultsOrGoesOn i s := by
  cases i with
  | cfgRaster f dw dh =>
    rcases execCfgRaster_cases f dw dh s with ⟨-, h⟩ | ⟨-, -, -, h⟩ | ⟨-, -, -, -, h⟩ <;>
      exact .inr ⟨_, h, rfl, rfl, rfl, rfl⟩
  | beginMb f x y =>
    rcases execBeginMb_cases f x y s with ⟨-, h⟩ | ⟨-, -, h⟩ | ⟨-, -, -, h⟩
    · exact .inl ⟨.fbNotConfigured, by decide, h⟩
    · exact .inl ⟨.mbOutOfRange, by decide, h⟩
    · exact .inr ⟨_, h, rfl, rfl, rfl, rfl⟩
  | intraMbDc | intraMbV | intraMbH | intraMbTm | intraBDc | intraBTm | intraBVe | intraBHe | intraBLd | intraBRd
  | intraBVr | intraBVl | intraBHd | intraBHu => exact faultsOrGoesOn_of_intra nofun rfl
  | inter ref p sub blk mvx mvy =>
    rcases execInter_cases ref p sub blk mvx mvy s with ⟨-, h⟩ | ⟨-, -, h⟩ | ⟨-, -, -, h⟩ | ⟨-, -, -, h⟩
    · exact .inl ⟨.noMbContext, by decide, h⟩
    · exact .inl ⟨.fbNotConfigured, by decide, h⟩
    · exact .inl ⟨.refIsCurrent, by decide, h⟩
    · exact .inr ⟨_, h, rfl, rfl, rfl, rfl⟩

/-- FAULTED goes from 0 to 1 in a command only by the fault entry of R236, with a code from 6 on (R232). -/
theorem eq_raiseLogicFault_of_exec {i : Instr} {s t : State} (hs : s.faulted = false) (h : exec i s = .next t)
    (ht : t.faulted = true) : ∃ k, 6 ≤ (faultCodeOf k).toNat ∧ t = raiseLogicFault k (encode i) s := by
  rcases exec_faultsOrGoesOn i s with ⟨k, hcode, hk⟩ | ⟨u, hu, hkeep, -⟩
  · cases h.symm.trans hk; exact ⟨k, hcode, rfl⟩
  · cases h.symm.trans hu; exact nomatch ht.symm.trans (hkeep.trans hs)

/-! ### The core with no word, and after a fault (R237, R248) -/

/-- A core with no word is idle (R248; log entry 2). -/
theorem coreTurn_of_no_word {s : State} (hf : s.faulted = false) (hp : s.port = []) : coreTurn s = .next s := by
  simp [coreTurn, hf, hp]

/-- After a fault a turn of the core passes (R237; log entry 3). -/
theorem coreTurn_of_faulted {s : State} (hf : s.faulted = true) : coreTurn s = .next s := by
  simp [coreTurn, hf]

/-- After a fault, with nothing scheduled, no step is enabled (R237; log entry 3). -/
theorem step_of_stuck {s : State} (hf : s.faulted = true) (h : s.schedule = []) : step s = .fault .coreStuck := by
  simp [step, stepMachine, h, hf]

/-- After a fault no step but a reset event writes a register, takes a word off the port, or changes a sample that the
host does not write (R237, R239). -/
theorem faulted_step_frame {s t : State} (hf : s.faulted = true) (h : step s = .next t)
    (hreset : ∀ rest, s.schedule ≠ .resetInput :: rest) :
    sameFault s t ∧ sameContext s t ∧ t.cfgErr = s.cfgErr ∧ t.busy = s.busy ∧
      (∃ arrived, t.port = s.port ++ arrived) ∧
      ((∀ a v rest, s.schedule ≠ .hostWrite a v :: rest) → ∀ a, t.cell a = s.cell a) := by
  rcases step_cases h with ⟨-, hf', -⟩ | ⟨e, rest, hs, ⟨-, hc⟩ | ⟨w, -, rfl⟩ | ⟨a, -, -, -, rfl⟩ |
    ⟨a, v, rfl, -, -, rfl⟩ | ⟨o, -, rfl⟩ | ⟨o, v, -, rfl⟩ | ⟨rfl, -⟩⟩
  case inl => exact nomatch hf.symm.trans hf'
  case inr.inl =>
    cases (coreTurn_of_faulted (s := { s with schedule := rest }) hf).symm.trans hc
    exact ⟨⟨rfl, rfl, rfl⟩, ⟨rfl, rfl, rfl, rfl, rfl⟩, rfl, rfl, ⟨[], (List.append_nil _).symm⟩, fun _ _ => rfl⟩
  case inr.inr.inl =>
    exact ⟨⟨rfl, rfl, rfl⟩, ⟨rfl, rfl, rfl, rfl, rfl⟩, rfl, rfl, ⟨[w], rfl⟩, fun _ _ => rfl⟩
  case inr.inr.inr.inr.inl =>
    exact ⟨⟨rfl, rfl, rfl⟩, ⟨rfl, rfl, rfl, rfl, rfl⟩, rfl, rfl, ⟨[], (List.append_nil _).symm⟩,
      fun hno => absurd hs (hno a v rest)⟩
  case inr.inr.inr.inr.inr.inr.inr => exact absurd hs (hreset rest)
  all_goals
    exact ⟨⟨rfl, rfl, rfl⟩, ⟨rfl, rfl, rfl, rfl, rfl⟩, rfl, rfl, ⟨[], (List.append_nil _).symm⟩, fun _ _ => rfl⟩

end Sys2Proof.Machine

namespace Sys2Proof.Proofs

open Sys2Proof Sys2Proof.Machine

/-- Settles O13: the turn is the core's, and performing a word that does not decode is fault entry. -/
theorem undecodableWordEntersItsFault : Obligations.UndecodableWordEntersItsFault := by
  intro s w ws rest k hf hp hd ht
  have hstep : step s = .next (endCommand (raiseLogicFault k w
      (beginCommand { s with port := ws, schedule := rest }))) :=
    calc step s
        = coreTurn { s with schedule := rest } := step_eq_coreTurn hf ht
      _ = perform w { s with port := ws, schedule := rest } := coreTurn_of_word hf hp
      _ = _ := perform_error hd _
  refine ⟨_, hstep, rfl, ?_, rfl, rfl, rfl, rfl, rfl, ⟨rfl, rfl, rfl, rfl, rfl⟩, rfl, rfl, rfl, rfl⟩
  rcases decode_error hd with rfl | rfl | rfl | rfl | rfl <;> simp [faultCodeOf]

/-- Settles O14: a command raises FAULTED only by fault entry. -/
theorem logicFaultsArePrecise : Obligations.LogicFaultsArePrecise := by
  intro i s t hs h ht
  obtain ⟨k, hcode, rfl⟩ := eq_raiseLogicFault_of_exec hs h ht
  exact ⟨fun _ => rfl, ⟨rfl, rfl, rfl, rfl, rfl⟩, rfl, ⟨rfl, rfl, rfl⟩, rfl, rfl, rfl, hcode, (faultCodeOf_range k).2⟩

/-- Settles O15: what each scheduled event does after a fault; the host's steps do not look at FAULTED. -/
theorem faultedCoreIsStuckUntilReset : Obligations.FaultedCoreIsStuckUntilReset := by
  intro s hf
  refine ⟨step_of_stuck hf, fun t => faulted_step_frame hf, fun offset rest => ?_, fun a v rest hb ha => ?_, ?_⟩
  · exact ⟨_, (step_of_scheduled rfl).trans (occur_statusRead offset _),
      congrArg (some ∘ HostReply.status) (statusBlock_withSchedule s rest offset)⟩
  · obtain ⟨⟨t, ht, hcell, -⟩, u, x, hu, hreply, hx, -⟩ := (hostStepsAccessOneCell s a v rest).1 hb ha
    exact ⟨⟨t, ht, hcell⟩, u, x, hu, hreply, hx⟩
  · rintro ⟨-, -, hf', -⟩
    exact nomatch hf.symm.trans hf'

/-- Settles O17: fault entry and going on are both next states, and neither touches the outside. -/
theorem everyCommandAnswersANextState : Obligations.EveryCommandAnswersANextState := by
  intro i s
  rcases exec_faultsOrGoesOn i s with ⟨k, -, h⟩ | ⟨t, h, hkeep, hout⟩
  · exact ⟨_, h, .inl rfl, rfl, rfl, rfl⟩
  · exact ⟨t, h, .inr hkeep, hout⟩

/-- Settles O16: the turn is the core's, which is idle. -/
theorem idleStepChangesNothing : Obligations.IdleStepChangesNothing :=
  fun _ hf hp hs => (step_of_unscheduled hf hs).trans (coreTurn_of_no_word hf hp)

end Sys2Proof.Proofs
end

section
/-! PROOFS. The reset input, the word that `withFetchWord` places, how a core leaves the unconfigured states, and the
statements of spec/70_reset_and_hazards.md. -/

namespace Sys2Proof.Machine

/-! ### The reset input (R260, R261) -/

@[simp] theorem occur_resetInput (s : State) : occur .resetInput s = .next (resetEvent s) := rfl

/-- The reset event leaves every slot as after reset (R42). -/
@[simp] theorem slot_resetEvent (s : State) (f : Slot) : (resetEvent s).slot f = State.reset.slot f :=
  slot_congr rfl f

/-! ### The placed word (R267) -/

theorem decode_of_decodeTableWord {nbits w : Nat} {i : Instr} (h : decodeTableWord nbits w = some i) :
    decode (BitVec.ofNat 64 (w % 2 ^ nbits)) = .ok i := by
  unfold decodeTableWord at h
  split at h
  · next hd => cases h; exact hd
  · cases h

/-! ### The unconfigured states (R262) -/

theorem unconfigured_reset : unconfigured State.reset := by decide

/-- The end of a raster configures no slot and gives no context (R112). -/
theorem unconfigured_endRaster {s : State} (h : unconfigured s) (f : Slot) : unconfigured (endRaster f s) := by
  obtain ⟨hslots, hctx⟩ := h
  refine ⟨fun g => ?_, by simp [hctx]⟩
  rw [slot_endRaster]
  split
  · rfl
  · exact hslots g

/-- CFG_RASTER raises an UnsupportedInput at most, which is no fault (R231). -/
theorem cfgRaster_keeps_faulted {f : Slot} {dw dh : BitVec 14} {s t : State}
    (h : exec (.cfgRaster f dw dh) s = .next t) : t.faulted = s.faulted := by
  rcases execCfgRaster_cases f dw dh s with ⟨-, h'⟩ | ⟨-, -, -, h'⟩ | ⟨-, -, -, -, h'⟩ <;>
    cases h'.symm.trans h <;> rfl

/-- The command is a CFG_RASTER with even dimensions other than 0, and the state has its slot configured with them. -/
def configures (i : Instr) (t : State) : Prop :=
  ∃ f dw dh, i = .cfgRaster f dw dh ∧ dw.toNat % 2 = 0 ∧ dh.toNat % 2 = 0 ∧ dw.toNat ≠ 0 ∧ dh.toNat ≠ 0 ∧
    t.slot f = ⟨true, dw, dh⟩

/-- Only a CFG_RASTER that succeeds leaves the unconfigured states: BEGIN_MB lacks a slot, a prediction a context. -/
theorem configures_of_exec {i : Instr} {s t : State} (hs : unconfigured s) (h : exec i s = .next t)
    (ht : ¬unconfigured t) : configures i t := by
  rcases exec_cases i s with ⟨k, hk⟩ | ⟨f, dw, dh, e, -, hk⟩ | ⟨f, dw, dh, hi, hw, hh, hw0, hh0, hk⟩ |
    ⟨f, x, y, -, hv, -, -, -⟩ | ⟨b, pred, n, -, hv, -⟩
  · cases hk.symm.trans h; exact absurd hs ht
  · cases hk.symm.trans h; exact absurd (unconfigured_endRaster hs f) ht
  · cases hk.symm.trans h
    exact ⟨f, dw, dh, hi, hw, hh, hw0, hh0, (slot_beginRaster _ f f dw dh).trans (if_pos rfl)⟩
  · exact nomatch (hs.1 f).symm.trans hv
  · exact nomatch hs.2.symm.trans hv

/-- A core's turn that leaves the unconfigured states performs such a CFG_RASTER. -/
theorem configures_of_coreTurn {s t : State} (hs : unconfigured s) (h : coreTurn s = .next t)
    (ht : ¬unconfigured t) :
    ∃ w ws i, s.faulted = false ∧ s.port = w :: ws ∧ decode w = .ok i ∧ configures i t := by
  rcases coreTurn_cases h with rfl | ⟨w, ws, hf, hp, ⟨k, -, rfl⟩ | ⟨i, u, hd, hu, rfl⟩⟩
  · exact absurd hs ht
  · exact absurd hs ht
  · exact ⟨w, ws, i, hf, hp, hd,
      configures_of_exec (s := beginCommand { s with port := ws }) (t := u) hs hu ht⟩

/-- A step that leaves the unconfigured states is such a turn of the core: no event of the host writes a register, and
the reset input leads back to them. -/
theorem configures_of_step {s t : State} (hs : unconfigured s) (h : step s = .next t) (ht : ¬unconfigured t) :
    (s.schedule = [] ∨ ∃ rest, s.schedule = .core :: rest) ∧
      ∃ w ws i, s.faulted = false ∧ s.port = w :: ws ∧ decode w = .ok i ∧ configures i t := by
  rcases step_cases h with ⟨hsch, -, hc⟩ | ⟨e, rest, hsch, ⟨rfl, hc⟩ | ⟨w, -, rfl⟩ | ⟨a, -, -, -, rfl⟩ |
    ⟨a, v, -, -, -, rfl⟩ | ⟨o, -, rfl⟩ | ⟨o, v, -, rfl⟩ | ⟨-, rfl⟩⟩
  case inl => exact ⟨.inl hsch, configures_of_coreTurn hs hc ht⟩
  case inr.inl =>
    exact ⟨.inr ⟨rest, hsch⟩, configures_of_coreTurn (s := { s with schedule := rest }) hs hc ht⟩
  case inr.inr.inr.inr.inr.inr.inr => exact absurd unconfigured_reset ht
  all_goals exact absurd hs ht

end Sys2Proof.Machine

namespace Sys2Proof.Proofs

open Sys2Proof Sys2Proof.Machine

/-- Settles O2: the reset state by its fields and the idle step; each command by its first failed check; and "until" by
what a step that leaves the unconfigured states performs. -/
theorem afterResetOnlyCfgRasterCompletes : Obligations.AfterResetOnlyCfgRasterCompletes := by
  refine ⟨unconfigured_reset, rfl, rfl, statusBlock_reset, idleStepChangesNothing _ rfl rfl rfl,
    fun s hs => ⟨fun f x y => ?_, fun i b hb => ?_, fun f dw dh t => cfgRaster_keeps_faulted⟩, fun s t hs h ht => ?_⟩
  · exact faultsWith_of_raise (i := .beginMb f x y) (k := .fbNotConfigured) (execBeginMb_of_unconfigured (hs.1 f))
  · exact faultsWith_of_raise (k := .noMbContext) (exec_of_no_context (Option.isSome_of_eq_some hb) hs.2)
  · obtain ⟨hturn, w, ws, _, hf, hp, hd, f, dw, dh, rfl, hdims⟩ := configures_of_step hs h ht
    exact ⟨w, ws, f, dw, dh, hf, hp, hturn, hd, hdims⟩

/-- Settles O3: the reset event's state is the reset state in every field of R42, and a faulted core's step that is not
the reset event keeps FAULTED. -/
theorem resetInputIsTheOnlyExitFromAFault : Obligations.ResetInputIsTheOnlyExitFromAFault := by
  obtain ⟨hslots, -⟩ := resetHoldsEveryResetValue
  refine ⟨fun s rest => ⟨_, (step_of_scheduled rfl).trans (occur_resetInput _),
    fun f => (slot_resetEvent _ f).trans (hslots f), rfl, rfl, rfl, rfl, rfl, rfl, rfl, rfl, rfl, fun _ => rfl, rfl⟩,
    fun s t hs h ht => ?_⟩
  by_contra hreset
  obtain ⟨⟨hkeep, -⟩, -⟩ := faulted_step_frame hs h (not_exists.1 hreset)
  exact nomatch ht.symm.trans (hkeep.trans hs)

/-- Settles O12: the placed word is at the front of the port and the turn is the core's, so the step runs its command
(O11). -/
theorem placedWordIsTheNextCommand : Obligations.PlacedWordIsTheNextCommand :=
  fun s nbits w i hf hd => stepRunsTheDecodedCommand.2 (s.withFetchWord nbits w) _ s.port s.schedule i hf rfl
    (decode_of_decodeTableWord hd) (.inl rfl)

end Sys2Proof.Proofs
end
